-- ==== Sys2Proof/Word.lean ====
section
/-! DEFINITION. The word types of rust8 CORE (spec/00_scope.md R6, R7): every value is unsigned. -/

namespace Sys2Proof

/-- An 8-bit value: a general register, a timer, a memory byte (00_scope.md R6 REG_WIDTH, TIMER_WIDTH). -/
abbrev Byte := BitVec 8

/-- A 16-bit value: an instruction word, `I`, `pc`, a call-stack entry (00_scope.md R6). -/
abbrev Word := BitVec 16

/-- The index of a general register, 0 to 15 (10_state.md R22). -/
abbrev Reg := Fin 16

end Sys2Proof
end

