-- ==== Sys2Proof/Config.lean ====
section
/-! DEFINITION. The implementation parameters of rust8 CORE (spec/00_scope.md R6). The two OPEN ones, FONT_BASE
and FONT_TABLE, are the fields of `Config`; the others are constants. Their default values stand in
Sys2Proof/Machine/Font.lean. -/

namespace Sys2Proof

/-- MEM_SIZE: the number of addressable bytes (00_scope.md R6). -/
abbrev memSize : Nat := 4096

/-- LOAD_ADDR: the program load address and the reset value of `pc` (00_scope.md R6, 70_reset_and_hazards.md R221). -/
abbrev loadAddr : Nat := 0x200

/-- STACK_DEPTH: the most entries the call stack holds (00_scope.md R6). -/
abbrev stackDepth : Nat := 16

/-- GLYPH_BYTES: the bytes of one font glyph (00_scope.md R6). -/
abbrev glyphBytes : Nat := 5

/-- The bytes of the whole font table, sixteen glyphs (00_scope.md R6 NGLYPHS). -/
abbrev fontBytes : Nat := 80

/-- The two OPEN parameters (00_scope.md R6, 10_state.md R33, 92_eei_decisions.md D2 and D3). A statement about
the machine holds for every value of them unless it names one. DESIGN CHOICE, safe: log entries 3 and 4. -/
structure Config where
  /-- FONT_BASE. Its type is the constraint FONT_BASE + 80 <= 0x200: the values 0 to 432. -/
  fontBase : Fin 433
  /-- FONT_TABLE: sixteen glyphs of five bytes. -/
  fontTable : Vector Byte 80
  deriving DecidableEq, Repr

end Sys2Proof
end

