-- ==== Sys2Proof/Syntax.lean ====
section
/-! DEFINITION. The fourteen instructions of rust8 CORE, one constructor per row of spec/opcode_table.json in the
table's order (spec/30_encoding.md R86). The low nibble of a MOV word is not an operand (R87), so `mov` has no field
for it. -/

namespace Sys2Proof

/-- An instruction. `x`, `y` are register indices; `kk` an 8-bit immediate; `nnn` the 12-bit address immediate after
zero-extension to 16 bits (30_encoding.md R83); `n` a count of sprite rows. The ranges of `nnn` and `n` are checked by
`Instr.WellFormed` (log entry 22). -/
inductive Instr where
  /-- CLS: clear screen. -/
  | cls
  /-- RET: return from subroutine. -/
  | ret
  /-- JP nnn: jump. -/
  | jp (nnn : Word)
  /-- CALL nnn: call subroutine. -/
  | call (nnn : Word)
  /-- SE Vx, kk: skip if equal immediate. -/
  | se (x : Reg) (kk : Byte)
  /-- LDK Vx, kk: load immediate. -/
  | ldk (x : Reg) (kk : Byte)
  /-- ADDK Vx, kk: add immediate. -/
  | addk (x : Reg) (kk : Byte)
  /-- MOV Vx, Vy: copy register. -/
  | mov (x y : Reg)
  /-- LDI nnn: load the address register. -/
  | ldi (nnn : Word)
  /-- DRW Vx, Vy, n: draw a sprite. -/
  | drw (x y : Reg) (n : Nat)
  /-- LDF Vx: load the address of a font glyph. -/
  | ldf (x : Reg)
  /-- BCD Vx: store the decimal digits of a register. -/
  | bcd (x : Reg)
  /-- STM Vx: store registers V0 to Vx. -/
  | stm (x : Reg)
  /-- LDM Vx: load registers V0 to Vx. -/
  | ldm (x : Reg)
  deriving DecidableEq, Repr

end Sys2Proof
end

