-- ==== Sys2Proof/WellFormed.lean ====
section
/-! DEFINITION. Which instructions an encoding exists for (spec/30_encoding.md R82, R93): an address immediate is 0 to
0xFFF, a row count 0 to 15. The other operands are in range by their types. -/

namespace Sys2Proof

/-- An address immediate fits its twelve bits: `nnn` is 0 to 0xFFF (30_encoding.md R82, R93). -/
def addressFits (nnn : Word) : Bool := decide (nnn.toNat < 4096)

/-- A sprite row count fits its four bits: `n` is 0 to 15 (30_encoding.md R82, R93). -/
def rowCountFits (n : Nat) : Bool := decide (n < 16)

/-- Every operand of the instruction is in the range its field can hold; "otherwise the assembler rejects the line"
(30_encoding.md R93). -/
def Instr.wellFormed : Instr → Bool
  | .cls => true
  | .ret => true
  | .jp nnn => addressFits nnn
  | .call nnn => addressFits nnn
  | .se _ _ => true
  | .ldk _ _ => true
  | .addk _ _ => true
  | .mov _ _ => true
  | .ldi nnn => addressFits nnn
  | .drw _ _ n => rowCountFits n
  | .ldf _ => true
  | .bcd _ => true
  | .stm _ => true
  | .ldm _ => true

/-- `Instr.wellFormed` as a proposition. -/
abbrev Instr.WellFormed (i : Instr) : Prop := i.wellFormed = true

end Sys2Proof
end

