-- ==== Sys2Proof/Decode.lean ====
section
/-! DEFINITION. Decoding and encoding (spec/30_encoding.md): the opcode table as rows of mask, fixed bits and operand
extraction, scanned in its order; a decoder of bytes, total, which rejects by name; and after it the encoder. -/

namespace Sys2Proof

/-! ### Fields of an instruction word (30_encoding.md R82) -/

/-- `w[hi:lo]` of 00_scope.md R8: `(w div 2^lo) mod 2^(hi-lo+1)`. -/
def bits (w : Word) (hi lo : Nat) : Nat := w.toNat / 2 ^ lo % 2 ^ (hi - lo + 1)

/-- `x = w[11:8]`, the second nibble. -/
def fieldX (w : Word) : Reg := Fin.ofNat 16 (bits w 11 8)

/-- `y = w[7:4]`, the third nibble. -/
def fieldY (w : Word) : Reg := Fin.ofNat 16 (bits w 7 4)

/-- `n = w[3:0]`, the fourth nibble, a count. -/
def fieldN (w : Word) : Nat := bits w 3 0

/-- `kk = w[7:0]`, the low byte. -/
def fieldKk (w : Word) : Byte := BitVec.ofNat 8 (bits w 7 0)

/-- `nnn = w[11:0]`, zero-extended to 16 bits (30_encoding.md R83). -/
def fieldNnn (w : Word) : Word := BitVec.ofNat 16 (bits w 11 0)

/-! ### The instruction table -/

/-- One entry of the table: "an immutable triple of (bit-mask, fixed-opcode-bits, handler)" (30_encoding.md R84). Here
the handler is the instruction that the operand extraction yields. -/
structure TableRow where
  /-- The name the spec gives the row. -/
  mnemonic : String
  /-- The bits that take part in the comparison. -/
  mask : Word
  /-- The values those bits have. -/
  fixedBits : Word
  /-- Operand extraction from the whole word. -/
  build : Word → Instr

/-- The fourteen rows of 30_encoding.md R86, in the source's declaration order. The table is closed
(92_eei_decisions.md D20; log entry 18). -/
def opcodeTable : List TableRow :=
  [ ⟨"CLS",  0xFFFF, 0x00E0, fun _ => .cls⟩,
    ⟨"RET",  0xFFFF, 0x00EE, fun _ => .ret⟩,
    ⟨"JP",   0xF000, 0x1000, fun w => .jp (fieldNnn w)⟩,
    ⟨"CALL", 0xF000, 0x2000, fun w => .call (fieldNnn w)⟩,
    ⟨"SE",   0xF000, 0x3000, fun w => .se (fieldX w) (fieldKk w)⟩,
    ⟨"LDK",  0xF000, 0x6000, fun w => .ldk (fieldX w) (fieldKk w)⟩,
    ⟨"ADDK", 0xF000, 0x7000, fun w => .addk (fieldX w) (fieldKk w)⟩,
    ⟨"MOV",  0xF000, 0x8000, fun w => .mov (fieldX w) (fieldY w)⟩,
    ⟨"LDI",  0xF000, 0xA000, fun w => .ldi (fieldNnn w)⟩,
    ⟨"DRW",  0xF000, 0xD000, fun w => .drw (fieldX w) (fieldY w) (fieldN w)⟩,
    ⟨"LDF",  0xF0FF, 0xF029, fun w => .ldf (fieldX w)⟩,
    ⟨"BCD",  0xF0FF, 0xF033, fun w => .bcd (fieldX w)⟩,
    ⟨"STM",  0xF0FF, 0xF055, fun w => .stm (fieldX w)⟩,
    ⟨"LDM",  0xF0FF, 0xF065, fun w => .ldm (fieldX w)⟩ ]

/-- A word selects a row when `fixed_opcode_bits == instruction_word & bit_mask` (30_encoding.md R84). -/
def TableRow.selects (r : TableRow) (w : Word) : Bool := w &&& r.mask == r.fixedBits

/-! ### Decoding -/

/-- Why a decoder gives no instruction. -/
inductive DecodeReject where
  /-- Fewer than two bytes are left: there is no word to decode (30_encoding.md R80). -/
  | tooShort
  /-- "No match is a fatal decode error (unknown/unsupported instruction)" (30_encoding.md R84, R90). -/
  | noTableRow (w : Word)
  deriving DecidableEq, Repr

/-- The instruction a word stands for: the first row of the table that the word selects (30_encoding.md R84). -/
def decodeWord (w : Word) : Option Instr :=
  (opcodeTable.find? (fun r => r.selects w)).map (fun r => r.build w)

/-- The word of two consecutive bytes: `high : low`, the high byte at the lower address (20_memory.md R53, R58). -/
def wordOfBytes (high low : Byte) : Word := BitVec.ofNat 16 (high.toNat * 256 + low.toNat)

/-- The decoder of a byte sequence: it always consumes two bytes (30_encoding.md R80). -/
def decode : List Byte → Except DecodeReject (Instr × List Byte)
  | high :: low :: rest =>
    match decodeWord (wordOfBytes high low) with
    | some i => .ok (i, rest)
    | none => .error (.noTableRow (wordOfBytes high low))
  | _ => .error .tooShort

/-- The instruction the decoder reads from an opcode-table word `w` of `nbits` bits, laid out in memory order: the
high byte first (30_encoding.md R95). -/
def decodeTableWord (nbits w : Nat) : Option Instr :=
  let v := w % 2 ^ nbits
  match decode [BitVec.ofNat 8 (v / 256), BitVec.ofNat 8 v] with
  | .ok (i, _) => some i
  | .error _ => none

/-! ### Encoding (30_encoding.md R95) -/

/-- The word of a well-formed instruction: its fixed bits plus its fields at their positions (30_encoding.md R93,
R95). MOV has the canonical low nibble 0 (R87). -/
def encode : Instr → Word
  | .cls => 0x00E0
  | .ret => 0x00EE
  | .jp nnn => BitVec.ofNat 16 (0x1000 + nnn.toNat)
  | .call nnn => BitVec.ofNat 16 (0x2000 + nnn.toNat)
  | .se x kk => BitVec.ofNat 16 (0x3000 + x.val * 256 + kk.toNat)
  | .ldk x kk => BitVec.ofNat 16 (0x6000 + x.val * 256 + kk.toNat)
  | .addk x kk => BitVec.ofNat 16 (0x7000 + x.val * 256 + kk.toNat)
  | .mov x y => BitVec.ofNat 16 (0x8000 + x.val * 256 + y.val * 16)
  | .ldi nnn => BitVec.ofNat 16 (0xA000 + nnn.toNat)
  | .drw x y n => BitVec.ofNat 16 (0xD000 + x.val * 256 + y.val * 16 + n)
  | .ldf x => BitVec.ofNat 16 (0xF029 + x.val * 256)
  | .bcd x => BitVec.ofNat 16 (0xF033 + x.val * 256)
  | .stm x => BitVec.ofNat 16 (0xF055 + x.val * 256)
  | .ldm x => BitVec.ofNat 16 (0xF065 + x.val * 256)

/-- The two bytes of an instruction as they lie in memory: `w[15:8]` at the lower address, then `w[7:0]`
(30_encoding.md R95). -/
def encodeBytes (i : Instr) : List Byte :=
  [BitVec.ofNat 8 (bits (encode i) 15 8), BitVec.ofNat 8 (bits (encode i) 7 0)]

end Sys2Proof
end

