-- ==== Sys2Proof/Machine/Font.lean ====
section
/-! DEFINITION. The default values of the two OPEN parameters (spec/00_scope.md R6, spec/10_state.md R33). They are
used by `State.reset` only; no statement about instructions rests on them. -/

namespace Sys2Proof.Machine

/-- The default FONT_BASE, 0x000 (00_scope.md R6, 92_eei_decisions.md D2). DESIGN CHOICE, unsafe: log entry 3. -/
def defaultFontBase : Fin 433 := 0

/-- The default FONT_TABLE (10_state.md R33, 93_implementation_defined.md G2): the glyphs 0 to F, top row first.
PRESUMED, unsafe: log entry 4. -/
def defaultFontTable : Vector Byte 80 :=
  #v[0xF0, 0x90, 0x90, 0x90, 0xF0,  0x20, 0x60, 0x20, 0x20, 0x70,
     0xF0, 0x10, 0xF0, 0x80, 0xF0,  0xF0, 0x10, 0xF0, 0x10, 0xF0,
     0x90, 0x90, 0xF0, 0x10, 0x10,  0xF0, 0x80, 0xF0, 0x10, 0xF0,
     0xF0, 0x80, 0xF0, 0x90, 0xF0,  0xF0, 0x10, 0x20, 0x40, 0x40,
     0xF0, 0x90, 0xF0, 0x90, 0xF0,  0xF0, 0x90, 0xF0, 0x10, 0xF0,
     0xF0, 0x90, 0xF0, 0x90, 0x90,  0xE0, 0x90, 0xE0, 0x90, 0xE0,
     0xF0, 0x80, 0x80, 0x80, 0xF0,  0xE0, 0x90, 0x90, 0x90, 0xE0,
     0xF0, 0x80, 0xF0, 0x80, 0xF0,  0xF0, 0x80, 0xF0, 0x80, 0x80]

/-- The parameters with the spec's default values. -/
def defaultConfig : Config := { fontBase := defaultFontBase, fontTable := defaultFontTable }

end Sys2Proof.Machine
end

