-- ==== Sys2Proof/Machine/State.lean ====
section
/-! DEFINITION. The state of rust8 CORE as plain data (spec/10_state.md R20), the reasons a step can stop, and the
state after reset (R40). -/

namespace Sys2Proof.Machine

/-- The six fault kinds of 60_exceptions.md R180. -/
inductive FaultKind where
  /-- An access not wholly inside addresses 0 to 4095 (R181): fetch, DRW, BCD, STM, LDM, load. -/
  | memoryBounds
  /-- The fetched word matches no table row (R182). -/
  | decodeError
  /-- CALL with sixteen entries in use (R183). -/
  | stackOverflow
  /-- RET with an empty stack (R184). -/
  | stackUnderflow
  /-- LDF of a register value over 15 (R185). -/
  | invalidDigit
  /-- A key index over 15 in is_pressed, press or release (R186). -/
  | invalidKey
  deriving DecidableEq, Repr

/-- The core status of 10_state.md R34. A faulting step sets `faulted`; only reset leaves it. -/
inductive Status where
  /-- Steps are defined. -/
  | running
  /-- A step has faulted with this kind; no step is defined (40_step_cycle.md R117). -/
  | faulted (kind : FaultKind)
  deriving DecidableEq, Repr

/-- Why a step answers no next state. -/
inductive Fault where
  /-- Raised by `step` alone, in status Faulted: "no step is defined in status Faulted; only reset is"
  (40_step_cycle.md R117; 93_implementation_defined.md U9, stuck). `kind` is the fault the core stopped with. Safe: the
  model stops where a driver of the original might go on (log entry 2). -/
  | noStepWhileFaulted (kind : FaultKind)
  deriving DecidableEq, Repr

/-- Why the model gives an instruction no meaning. -/
inductive Refusal where
  /-- Raised by an arm of `exec` whose instruction has no meaning yet; no arm raises it. Safe: the model stops. -/
  | notModelled (mnemonic : String)
  deriving DecidableEq, Repr

/-- Memory as the cells that differ from the reset contents, by rising address; the contents of an unlisted address
and the canonical form are in Sys2Proof/Machine/Ops.lean (log entry 21). -/
abbrev Memory := List Host.Cell

/-- The framebuffer: 32 rows of 64 pixels, `true` on (10_state.md R31). -/
abbrev Framebuffer := Vector (Vector Bool 64) 32

/-- The whole state of the block (10_state.md R20), under the spec's own names, and the parameters `config`. -/
structure State where
  /-- The sixteen general registers (R22). -/
  V : Vector Byte 16
  /-- The address register (R25). -/
  I : Word
  /-- The program counter (R27). -/
  pc : Word
  /-- The sixteen call-stack slots (R26). -/
  stack : Vector Word 16
  /-- The stack pointer: the number of entries in use, 0 to 16 (R26). -/
  sp : Fin 17
  /-- The delay timer (R29). -/
  DT : Byte
  /-- The sound timer (R29). -/
  ST : Byte
  /-- The 4096 memory bytes (R30). -/
  mem : Memory
  /-- The display's pixels (R31). -/
  fb : Framebuffer
  /-- The key bitmap: bit k is set while key k is pressed (R32). -/
  keys : BitVec 16
  /-- Running, or stopped by a fault (R34). -/
  status : Status
  /-- The OPEN parameters (R21): the model's own field, which nothing changes (log entry 3). -/
  config : Config
  deriving DecidableEq, Repr

/-- The framebuffer with every pixel off. -/
def Framebuffer.allOff : Framebuffer := Vector.replicate 32 (Vector.replicate 64 false)

/-- The state after reset with parameters `c` (10_state.md R40, 70_reset_and_hazards.md R220). Memory holds the reset
contents, so nothing is listed. The values of `fb`, `keys` and `I` are the spec's own decisions D4, D5 and D6
(DESIGN CHOICE: log entries 5, 6 and 7). -/
def State.resetWith (c : Config) : State where
  V := Vector.replicate 16 0
  I := 0
  pc := 0x200
  stack := Vector.replicate 16 0
  sp := 0
  DT := 0
  ST := 0
  mem := []
  fb := Framebuffer.allOff
  keys := 0
  status := .running
  config := c

/-- The machine right after reset, with the parameters at the spec's defaults (00_scope.md R6; log entries 3 and 4). -/
def State.reset : State := State.resetWith defaultConfig

end Sys2Proof.Machine
end

