-- ==== Sys2Proof/Machine/Ops.lean ====
section
/-! DEFINITION. The named operations over memory, registers, the call stack, the program counter and the timers, and
entry into a fault (spec/20_memory.md, spec/10_state.md, spec/60_exceptions.md). -/

namespace Sys2Proof.Machine

/-! ### Memory contents (20_memory.md, 10_state.md R30) -/

/-- What a byte holds after reset: the font table at FONT_BASE, zero elsewhere (10_state.md R40). An unlisted address
reads as this. -/
def resetByte (c : Config) (a : Nat) : Byte :=
  if h : c.fontBase.val ≤ a ∧ a - c.fontBase.val < 80 then c.fontTable[a - c.fontBase.val]'h.2 else 0

/-- The byte at an address: the listed one, or the reset contents. -/
def Memory.byteAt (c : Config) : Memory → Nat → Byte
  | [], a => resetByte c a
  | cell :: rest, a => if cell.1 = a then cell.2 else Memory.byteAt c rest a

/-- Memory with the cell `(a, b)` in its place by address; a cell of the same address is replaced. -/
def Memory.insertCell (a : Nat) (b : Byte) : Memory → Memory
  | [] => [(a, b)]
  | cell :: rest =>
    if a < cell.1 then (a, b) :: cell :: rest
    else if a = cell.1 then (a, b) :: rest
    else cell :: Memory.insertCell a b rest

/-- Memory with the byte `b` at address `a`, in canonical form again: the reset contents are not listed. -/
def Memory.put (c : Config) (a : Nat) (b : Byte) (m : Memory) : Memory :=
  if b = resetByte c a then m.filter (fun cell => cell.1 ≠ a) else Memory.insertCell a b m

/-- `n` bytes from address `a` upwards. -/
def Memory.readBytes (c : Config) (m : Memory) (a : Nat) : Nat → List Byte
  | 0 => []
  | n + 1 => Memory.byteAt c m a :: Memory.readBytes c m (a + 1) n

/-- Bytes stored one by one from address `a` upwards. -/
def Memory.writeBytes (c : Config) (m : Memory) (a : Nat) : List Byte → Memory
  | [] => m
  | b :: rest => Memory.writeBytes c (Memory.put c a b m) (a + 1) rest

/-- The canonical form: addresses strictly rising and inside memory, no cell equal to the reset contents. -/
abbrev Memory.wf (c : Config) (m : Memory) : Prop :=
  m.Pairwise (fun p q => p.1 < q.1) ∧ ∀ p ∈ m, p.1 < memSize ∧ p.2 ≠ resetByte c p.1

/-! ### The Memory controller's operations (20_memory.md R50 to R56)

Each checks its whole range against MEM_SIZE with natural-number sums (D13, log entry 10) and on failure changes
nothing. Out-of-range reads raise MemoryBounds like writes (D7, log entry 8). -/

/-- `read_byte(address)` (R51). -/
def State.readByte (s : State) (a : Nat) : Except FaultKind Byte :=
  if a < memSize then .ok (Memory.byteAt s.config s.mem a) else .error .memoryBounds

/-- `write_byte(value, address)` (R52). -/
def State.writeByte (s : State) (a : Nat) (b : Byte) : Except FaultKind State :=
  if a < memSize then .ok { s with mem := Memory.put s.config a b s.mem } else .error .memoryBounds

/-- `read_slice(start, length)`, the pseudocode's `MemRead` (R54, 00_scope.md R11). -/
def State.readSlice (s : State) (start len : Nat) : Except FaultKind (List Byte) :=
  if start + len ≤ memSize then .ok (Memory.readBytes s.config s.mem start len) else .error .memoryBounds

/-- `read_word(address)`, big-endian (R53): the instruction-fetch primitive. -/
def State.readWord (s : State) (a : Nat) : Except FaultKind Word :=
  if a + 2 ≤ memSize then
    .ok (wordOfBytes (Memory.byteAt s.config s.mem a) (Memory.byteAt s.config s.mem (a + 1)))
  else .error .memoryBounds

/-- `MemWrite`: all of the bytes or none (00_scope.md R11, 20_memory.md R56; D8, log entry 9). -/
def State.memWrite (s : State) (a : Nat) (bytes : List Byte) : Except FaultKind State :=
  if a + bytes.length ≤ memSize then .ok { s with mem := Memory.writeBytes s.config s.mem a bytes }
  else .error .memoryBounds

/-- `load(buffer, address)` (R55): "does not partially write on failure". -/
def State.load (s : State) (buffer : List Byte) (a : Nat) : Except FaultKind State :=
  s.memWrite a buffer

/-! ### Registers (10_state.md R22, R25, R27) -/

/-- `V[r]`. -/
def State.reg (s : State) (r : Reg) : Byte := s.V[r.val]

/-- `V[r] <- b`. -/
def State.setReg (s : State) (r : Reg) (b : Byte) : State := { s with V := s.V.set r.val b }

/-- `I <- a`. -/
def State.setI (s : State) (a : Word) : State := { s with I := a }

/-- `pc <- target`. -/
def State.setPc (s : State) (target : Word) : State := { s with pc := target }

/-- `pc <- pc + 2`: one instruction width (40_step_cycle.md R113). The sum is modulo 65536; no step executes at a `pc`
where it would wrap (10_state.md R28; log entry 10). -/
def State.advance (s : State) : State := s.setPc (s.pc + 2)

/-- `pc <- pc + 4`: past the next instruction (41_control_flow.md R134). -/
def State.skip (s : State) : State := s.setPc (s.pc + 4)

/-! ### The call stack (10_state.md R26) -/

/-- `stack[k]`. -/
def State.slot (s : State) (k : Fin 16) : Word := s.stack[k.val]

/-- `stack[sp] <- a; sp <- sp + 1`, or StackOverflow when sixteen entries are in use (41_control_flow.md R131). -/
def State.push (s : State) (a : Word) : Except FaultKind State :=
  if h : s.sp.val < stackDepth then
    .ok { s with stack := s.stack.set s.sp.val a h, sp := ⟨s.sp.val + 1, Nat.succ_lt_succ h⟩ }
  else .error .stackOverflow

/-- `sp <- sp - 1`, with the popped entry, or StackUnderflow when none is in use (41_control_flow.md R133). The popped
slot keeps its value (D14, log entry 11). -/
def State.pop (s : State) : Except FaultKind (Word × State) :=
  if h : s.sp.val = 0 then .error .stackUnderflow
  else
    have below : s.sp.val - 1 < 16 := by have := s.sp.isLt; omega
    .ok (s.stack[s.sp.val - 1], { s with sp := ⟨s.sp.val - 1, Nat.lt_succ_of_lt below⟩ })

/-! ### Fetch (40_step_cycle.md R111) -/

/-- `w <- MemReadWord(pc)`. -/
def State.fetch (s : State) : Except FaultKind Word := s.readWord s.pc.toNat

/-! ### Entry into a fault (60_exceptions.md R190, 40_step_cycle.md R116) -/

/-- The one shared entry into a fault: `status <- Faulted(kind)` and nothing else changes (log entries 1 and 9). `s` is
the state before the step. There is no return from a fault but reset (R191). -/
def State.takeFault (s : State) (kind : FaultKind) : State := { s with status := .faulted kind }

/-- What a handler that began in `s` answers: its state, or the fault entered from `s`, every change of the handler
discarded (00_scope.md R12). -/
def State.settle (s : State) : Except FaultKind State → Host.Outcome State Fault Refusal
  | .ok t => .next t
  | .error kind => .next (s.takeFault kind)

/-! ### The timer tick (60_exceptions.md R195) -/

/-- One timer: decremented by 1 if greater than 0, else unchanged. -/
def tickTimer (t : Byte) : Byte := if t.toNat > 0 then t - 1 else t

/-- Phase 4 of a step: both timers, each on its own. -/
def State.tick (s : State) : State := { s with DT := tickTimer s.DT, ST := tickTimer s.ST }

/-- The end of a step: the timer tick, which "does not run in a step that faulted" (40_step_cycle.md R114). -/
def State.finishStep (t : State) : State :=
  match t.status with
  | .running => t.tick
  | .faulted _ => t

/-- `State.finishStep` on the outcome of the execute phase. -/
def endOfStep : Host.Outcome State Fault Refusal → Host.Outcome State Fault Refusal
  | .next t => .next t.finishStep
  | .fault r => .fault r
  | .refused r => .refused r

end Sys2Proof.Machine
end

