-- ==== Sys2Proof/Machine/Operands.lean ====
section
/-! DEFINITION. What instructions compute from their operands before they act: the effective address of the one data
addressing mode, the register lists of STM and LDM, the digits of BCD, the glyph address of LDF (spec/44_memory_transfer.md,
spec/42_register_ops.md). -/

namespace Sys2Proof.Machine

/-- The effective address `I + k`: an exact sum, not reduced modulo anything (44_memory_transfer.md R173; D13, log
entry 10). -/
def State.effectiveAddress (s : State) (k : Nat) : Nat := s.I.toNat + k

/-- `(V[0], V[1], ..., V[x])`, the bytes STM stores (44_memory_transfer.md R171). -/
def State.regsUpTo (s : State) (x : Reg) : List Byte := s.V.toList.take (x.val + 1)

/-- `V[k] <- b[0]`, `V[k+1] <- b[1]`, and so on: LDM's writes (44_memory_transfer.md R172). Bytes past `V[15]`, which no
LDM has, are dropped. -/
def State.setRegsFrom (s : State) (k : Nat) : List Byte → State
  | [] => s
  | b :: rest => (if h : k < 16 then s.setReg ⟨k, h⟩ b else s).setRegsFrom (k + 1) rest

/-- `(h, t, o)`: the decimal digits of a byte, hundreds first (44_memory_transfer.md R170). -/
def decimalDigits (v : Byte) : List Byte :=
  [BitVec.ofNat 8 (v.toNat / 100), BitVec.ofNat 8 (v.toNat / 10 % 10), BitVec.ofNat 8 (v.toNat % 10)]

/-- `FONT_BASE + 5 * V[x]`, or InvalidDigit when the value is over 15; the whole 8-bit value is tested
(42_register_ops.md R144). -/
def State.glyphAddress (s : State) (digit : Byte) : Except FaultKind Word :=
  if digit.toNat > 15 then .error .invalidDigit
  else .ok (BitVec.ofNat 16 (s.config.fontBase.val + glyphBytes * digit.toNat))

/-- `(V[x] + kk) mod 256` (42_register_ops.md R141). -/
def addByte (a b : Byte) : Byte := BitVec.ofNat 8 ((a.toNat + b.toNat) % 256)

end Sys2Proof.Machine
end

