-- ==== Sys2Proof/Machine/Flags.lean ====
section
/-! DEFINITION. The one flag of the machine: register 15 as DRW's collision output (spec/10_state.md R23). There is no
flag register, no carry and no condition code (10_state.md R23, R35). -/

namespace Sys2Proof.Machine

/-- The flag register, general register 15 (00_scope.md R16). -/
def flagReg : Reg := 15

/-- The value of the collision flag: exactly 1 or 0 (43_display.md R157). -/
def flagByte (collision : Bool) : Byte := if collision then 1 else 0

/-- `V[15] <- 1 if collision else 0`. -/
def State.setCollision (s : State) (collision : Bool) : State := s.setReg flagReg (flagByte collision)

end Sys2Proof.Machine
end

