-- ==== Sys2Proof/Machine/Control.lean ====
section
/-! DEFINITION. The meanings of JP, CALL, RET and SE (spec/41_control_flow.md). `pc` on entry is the address of the
instruction itself; no target is checked (R135). -/

namespace Sys2Proof.Machine

/-- JP (41_control_flow.md R130). -/
def execJp (nnn : Word) (s : State) : Host.Outcome State Fault Refusal :=
  .next (s.setPc nnn)

/-- CALL (41_control_flow.md R131): pushes the address of the CALL itself. -/
def execCall (nnn : Word) (s : State) : Host.Outcome State Fault Refusal :=
  s.settle ((s.push s.pc).map (fun t => t.setPc nnn))

/-- RET (41_control_flow.md R133): to the instruction after the popped call site, modulo 65536 (D13, log entry 10). -/
def execRet (s : State) : Host.Outcome State Fault Refusal :=
  s.settle (s.pop.map (fun popped => popped.2.setPc (popped.1 + 2)))

/-- SE (41_control_flow.md R134). -/
def execSe (x : Reg) (kk : Byte) (s : State) : Host.Outcome State Fault Refusal :=
  .next (if s.reg x = kk then s.skip else s.advance)

end Sys2Proof.Machine
end

