-- ==== Sys2Proof/Machine/Display.lean ====
section
/-! DEFINITION. The Display component (spec/43_display.md R150 to R155) and the meanings of CLS and DRW (R156, R157). -/

namespace Sys2Proof.Machine

/-! ### The Display component -/

/-- `fb[y][x]`: row `y` from the top, column `x` from the left (10_state.md R31; orientation: log entry 16). -/
def Framebuffer.pixel (fb : Framebuffer) (y : Fin 32) (x : Fin 64) : Bool := fb[y.val][x.val]

/-- `fb[y][x] <- v`. -/
def Framebuffer.setPixel (fb : Framebuffer) (y : Fin 32) (x : Fin 64) (v : Bool) : Framebuffer :=
  fb.set y.val (fb[y.val].set x.val v)

/-- `clear()`: "sets every pixel to off" (43_display.md R151). -/
def Framebuffer.clear (_fb : Framebuffer) : Framebuffer := Framebuffer.allOff

/-- A drawing in progress: the framebuffer and the collision found so far (43_display.md R153). -/
abbrev Drawing := Framebuffer × Bool

/-- One pixel of one sprite row at column offset `b`: `fb[py][px]` is XORed with bit `7 - b` of the row, and a pixel that
goes from on to off is a collision (43_display.md R152, R153). -/
def drawBit (row : Byte) (py : Fin 32) (ox b : Nat) (d : Drawing) : Drawing :=
  let px := Fin.ofNat 64 (ox + b)
  let flip := row.getLsbD (7 - b)
  let old := d.1.pixel py px
  (d.1.setPixel py px (old ^^ flip), d.2 || (old && flip))

/-- One sprite row, offsets 0 to 7 in order. -/
def drawRow (row : Byte) (py : Fin 32) (ox : Nat) (d : Drawing) : Drawing :=
  [0, 1, 2, 3, 4, 5, 6, 7].foldl (fun d b => drawBit row py ox b d) d

/-- The rows of a sprite from row number `i` on: row `i` at vertical position `(oy + i) mod 32`. -/
def drawRows (ox oy i : Nat) : List Byte → Drawing → Drawing
  | [], d => d
  | row :: rest, d => drawRows ox oy (i + 1) rest (drawRow row (Fin.ofNat 32 (oy + i)) ox d)

/-- `draw(sprite, ox, oy) -> collision` (43_display.md R153). -/
def Framebuffer.draw (fb : Framebuffer) (sprite : List Byte) (ox oy : Nat) : Framebuffer × Bool :=
  drawRows ox oy 0 sprite (fb, false)

/-- The pixel values in row-major order: pixel `(x, y)` is element `y * 64 + x` (10_state.md R31). -/
def Framebuffer.pixels (fb : Framebuffer) : List Bool := (fb.toList.map Vector.toList).flatten

/-! ### CLS and DRW -/

/-- CLS (43_display.md R156). -/
def execCls (s : State) : Host.Outcome State Fault Refusal :=
  .next { s with fb := s.fb.clear }.advance

/-- The draw of a sprite at `(V[x], V[y])`, both origins read before `V[15]` is written (43_display.md R157). -/
def State.drawSprite (s : State) (x y : Reg) (sprite : List Byte) : State :=
  let drawn := s.fb.draw sprite (s.reg x).toNat (s.reg y).toNat
  { s with fb := drawn.1 }.setCollision drawn.2

/-- DRW (43_display.md R157): the bounds check precedes any drawing. -/
def execDrw (x y : Reg) (n : Nat) (s : State) : Host.Outcome State Fault Refusal :=
  s.settle ((s.readSlice (s.effectiveAddress 0) n).map (fun sprite => (s.drawSprite x y sprite).advance))

end Sys2Proof.Machine
end

