-- ==== Sys2Proof/Machine/Register.lean ====
section
/-! DEFINITION. The meanings of LDK, ADDK, MOV, LDI and LDF (spec/42_register_ops.md). -/

namespace Sys2Proof.Machine

/-- LDK (42_register_ops.md R140). -/
def execLdk (x : Reg) (kk : Byte) (s : State) : Host.Outcome State Fault Refusal :=
  .next (s.setReg x kk).advance

/-- ADDK (42_register_ops.md R141): no carry or overflow indication. -/
def execAddk (x : Reg) (kk : Byte) (s : State) : Host.Outcome State Fault Refusal :=
  .next (s.setReg x (addByte (s.reg x) kk)).advance

/-- MOV (42_register_ops.md R142). -/
def execMov (x y : Reg) (s : State) : Host.Outcome State Fault Refusal :=
  .next (s.setReg x (s.reg y)).advance

/-- LDI (42_register_ops.md R143). -/
def execLdi (nnn : Word) (s : State) : Host.Outcome State Fault Refusal :=
  .next (s.setI nnn).advance

/-- LDF (42_register_ops.md R144). -/
def execLdf (x : Reg) (s : State) : Host.Outcome State Fault Refusal :=
  s.settle ((s.glyphAddress (s.reg x)).map (fun a => (s.setI a).advance))

end Sys2Proof.Machine
end

