-- ==== Sys2Proof/Machine/Transfer.lean ====
section
/-! DEFINITION. The meanings of BCD, STM and LDM (spec/44_memory_transfer.md). Each checks its whole range before any
effect (R173; D8, log entry 9); `I` is unchanged. -/

namespace Sys2Proof.Machine

/-- BCD (44_memory_transfer.md R170). -/
def execBcd (x : Reg) (s : State) : Host.Outcome State Fault Refusal :=
  s.settle ((s.memWrite (s.effectiveAddress 0) (decimalDigits (s.reg x))).map State.advance)

/-- STM (44_memory_transfer.md R171). -/
def execStm (x : Reg) (s : State) : Host.Outcome State Fault Refusal :=
  s.settle ((s.memWrite (s.effectiveAddress 0) (s.regsUpTo x)).map State.advance)

/-- LDM (44_memory_transfer.md R172). -/
def execLdm (x : Reg) (s : State) : Host.Outcome State Fault Refusal :=
  s.settle ((s.readSlice (s.effectiveAddress 0) (x.val + 1)).map (fun bytes => (s.setRegsFrom 0 bytes).advance))

end Sys2Proof.Machine
end

