-- ==== Sys2Proof/Machine/Step.lean ====
section
/-! DEFINITION. The CPU's single step (spec/40_step_cycle.md R110 to R117): fetch, decode, execute, timer tick. -/

namespace Sys2Proof.Machine

/-- One step (40_step_cycle.md R115). A fault of any phase enters Faulted (log entry 1); in status Faulted no step is
defined (R117, log entry 2). -/
def step (s : State) : Host.Outcome State Fault Refusal :=
  match s.status with
  | .faulted kind => .fault (.noStepWhileFaulted kind)
  | .running =>
    match s.fetch with
    | .error kind => .next (s.takeFault kind)
    | .ok w =>
      match decodeWord w with
      | none => .next (s.takeFault .decodeError)
      | some i => endOfStep (exec i s)

/-- `s` with the opcode-table word `w` of `nbits` bits stored at `pc` and `pc + 1`, high byte first, so that the next
step from a Running state with `pc <= 4094` fetches it. Outside that range nothing can be fetched and nothing is
stored. It stands for a program load (log entry 19). -/
def State.withFetchWord (s : State) (nbits w : Nat) : State :=
  let v := w % 2 ^ nbits
  match s.memWrite s.pc.toNat [BitVec.ofNat 8 (v / 256), BitVec.ofNat 8 v] with
  | .ok t => t
  | .error _ => s

end Sys2Proof.Machine
end

