-- ==== Sys2Proof/Machine/Assembler.lean ====
section
/-! DEFINITION. The assembler syntax of spec/30_encoding.md R93 and R94: from the characters of one line to the bytes
it emits. No step of the machine uses it; it says which program image a text stands for (log entry 25). -/

namespace Sys2Proof.Machine

/-- An operand as it is written. -/
inductive AsmOperand where
  /-- `V0` to `V9`, `VA` to `VF`. -/
  | reg (r : Reg)
  /-- An immediate, in hexadecimal with `0x` or in decimal. -/
  | imm (v : Nat)
  deriving DecidableEq, Repr

/-! ### Characters to operands -/

/-- The value of a digit character. -/
def digitValue (c : Char) : Option Nat :=
  if '0'.toNat ≤ c.toNat ∧ c.toNat ≤ '9'.toNat then some (c.toNat - '0'.toNat)
  else if 'A'.toNat ≤ c.toNat ∧ c.toNat ≤ 'F'.toNat then some (c.toNat - 'A'.toNat + 10)
  else if 'a'.toNat ≤ c.toNat ∧ c.toNat ≤ 'f'.toNat then some (c.toNat - 'a'.toNat + 10)
  else none

/-- The value of a sequence of digits in a base, read after the value `acc`. -/
def digitsValue (base acc : Nat) : List Char → Option Nat
  | [] => some acc
  | c :: rest =>
    match digitValue c with
    | some d => if d < base then digitsValue base (acc * base + d) rest else none
    | none => none

/-- A register name's second character: a decimal digit or `A` to `F`. -/
def registerOf (c : Char) : Option Reg :=
  if c.toNat ≤ 'F'.toNat then (digitValue c).map (Fin.ofNat 16) else none

/-- One operand. -/
def parseOperand : List Char → Option AsmOperand
  | ['V', c] => (registerOf c).map .reg
  | '0' :: 'x' :: d :: rest => (digitsValue 16 0 (d :: rest)).map .imm
  | d :: rest => (digitsValue 10 0 (d :: rest)).map .imm
  | [] => none

/-- The characters without the spaces before and after them. -/
def trimSpaces (text : List Char) : List Char :=
  ((text.dropWhile (· == ' ')).reverse.dropWhile (· == ' ')).reverse

/-- The parts of a text between its commas. -/
def splitCommas : List Char → List (List Char)
  | [] => [[]]
  | c :: rest =>
    if c = ',' then [] :: splitCommas rest
    else
      match splitCommas rest with
      | part :: parts => (c :: part) :: parts
      | [] => [[c]]

/-- Every operand of a list, or none at all. -/
def parseOperands : List (List Char) → Option (List AsmOperand)
  | [] => some []
  | part :: parts =>
    match parseOperand (trimSpaces part), parseOperands parts with
    | some o, some os => some (o :: os)
    | _, _ => none

/-! ### A mnemonic and its operands to an instruction -/

/-- `nnn` must be 0 to 0xFFF. -/
def asmAddress (v : Nat) : Option Word := if v ≤ 0xFFF then some (BitVec.ofNat 16 v) else none

/-- `kk` must be 0 to 0xFF. -/
def asmByte (v : Nat) : Option Byte := if v ≤ 0xFF then some (BitVec.ofNat 8 v) else none

/-- `n` must be 0 to 15. -/
def asmRows (v : Nat) : Option Nat := if v ≤ 15 then some v else none

/-- The instruction of a line: the table of 30_encoding.md R93; "The destination is the first operand." -/
def assembleInstr : List Char → List AsmOperand → Option Instr
  | ['C', 'L', 'S'], [] => some .cls
  | ['R', 'E', 'T'], [] => some .ret
  | ['J', 'P'], [.imm v] => (asmAddress v).map .jp
  | ['C', 'A', 'L', 'L'], [.imm v] => (asmAddress v).map .call
  | ['S', 'E'], [.reg x, .imm v] => (asmByte v).map (.se x)
  | ['L', 'D', 'K'], [.reg x, .imm v] => (asmByte v).map (.ldk x)
  | ['A', 'D', 'D', 'K'], [.reg x, .imm v] => (asmByte v).map (.addk x)
  | ['M', 'O', 'V'], [.reg x, .reg y] => some (.mov x y)
  | ['L', 'D', 'I'], [.imm v] => (asmAddress v).map .ldi
  | ['D', 'R', 'W'], [.reg x, .reg y, .imm v] => (asmRows v).map (.drw x y)
  | ['L', 'D', 'F'], [.reg x] => some (.ldf x)
  | ['B', 'C', 'D'], [.reg x] => some (.bcd x)
  | ['S', 'T', 'M'], [.reg x] => some (.stm x)
  | ['L', 'D', 'M'], [.reg x] => some (.ldm x)
  | _, _ => none

/-- The two bytes of a 16-bit value, high byte first (30_encoding.md R94). -/
def asmWordBytes (v : Nat) : List Byte := [BitVec.ofNat 8 (v / 256), BitVec.ofNat 8 v]

/-- The bytes of a line's mnemonic and operands: a data directive of 30_encoding.md R94, or an instruction. -/
def assembleParts : List Char → List AsmOperand → Option (List Byte)
  | ['D', 'W'], [.imm v] => if v ≤ 0xFFFF then some (asmWordBytes v) else none
  | ['D', 'B'], [.imm v] => (asmByte v).map (fun b => [b])
  | mnemonic, operands => (assembleInstr mnemonic operands).map encodeBytes

/-- The bytes of one line, or none where the assembler rejects it. -/
def assembleLine (line : List Char) : Option (List Byte) :=
  let text := trimSpaces line
  let mnemonic := text.takeWhile (· != ' ')
  match trimSpaces (text.dropWhile (· != ' ')) with
  | [] => assembleParts mnemonic []
  | c :: rest =>
    match parseOperands (splitCommas (c :: rest)) with
    | some operands => assembleParts mnemonic operands
    | none => none

/-- The image of a program: its lines' bytes in order, or none where a line is rejected. -/
def assembleProgram : List (List Char) → Option (List Byte)
  | [] => some []
  | line :: rest =>
    match assembleLine line, assembleProgram rest with
    | some bytes, some more => some (bytes ++ more)
    | _, _ => none

/-! ### A line written out

The canonical spelling of 30_encoding.md R93: hexadecimal immediates with capitals, operands separated by a comma and a
space. -/

/-- The character of a hexadecimal digit; it is asked for digits below 16 only. -/
def digitChar (d : Nat) : Char :=
  ['0', '1', '2', '3', '4', '5', '6', '7', '8', '9', 'A', 'B', 'C', 'D', 'E', 'F'].getD d '0'

/-- The digits of `v` in a base from 2 to 16, the most significant first; `fuel` over `v` gives all of them. -/
def digitsText (base : Nat) : Nat → Nat → List Char
  | 0, _ => []
  | fuel + 1, v => if v < base then [digitChar v] else digitsText base fuel (v / base) ++ [digitChar (v % base)]

/-- A number written in a base: no leading zeros. -/
def numeral (base v : Nat) : List Char := digitsText base (v + 1) v

/-- An operand as R93 writes it, the immediate in hexadecimal. -/
def AsmOperand.text : AsmOperand → List Char
  | .reg r => ['V', digitChar r.val]
  | .imm v => '0' :: 'x' :: numeral 16 v

/-- "Operands separated by commas." -/
def operandsText : List AsmOperand → List Char
  | [] => []
  | [o] => o.text
  | o :: os => o.text ++ ',' :: ' ' :: operandsText os

/-- A line of a mnemonic and its operands. -/
def asmLine (mnemonic : List Char) : List AsmOperand → List Char
  | [] => mnemonic
  | o :: os => mnemonic ++ ' ' :: operandsText (o :: os)

/-- The mnemonic and the operands of an instruction: the first column of the table of 30_encoding.md R93. -/
def asmForm : Instr → List Char × List AsmOperand
  | .cls => (['C', 'L', 'S'], [])
  | .ret => (['R', 'E', 'T'], [])
  | .jp nnn => (['J', 'P'], [.imm nnn.toNat])
  | .call nnn => (['C', 'A', 'L', 'L'], [.imm nnn.toNat])
  | .se x kk => (['S', 'E'], [.reg x, .imm kk.toNat])
  | .ldk x kk => (['L', 'D', 'K'], [.reg x, .imm kk.toNat])
  | .addk x kk => (['A', 'D', 'D', 'K'], [.reg x, .imm kk.toNat])
  | .mov x y => (['M', 'O', 'V'], [.reg x, .reg y])
  | .ldi nnn => (['L', 'D', 'I'], [.imm nnn.toNat])
  | .drw x y n => (['D', 'R', 'W'], [.reg x, .reg y, .imm n])
  | .ldf x => (['L', 'D', 'F'], [.reg x])
  | .bcd x => (['B', 'C', 'D'], [.reg x])
  | .stm x => (['S', 'T', 'M'], [.reg x])
  | .ldm x => (['L', 'D', 'M'], [.reg x])

/-- The line that writes an instruction. -/
def lineOf (i : Instr) : List Char := asmLine (asmForm i).1 (asmForm i).2

end Sys2Proof.Machine
end

