-- ==== Sys2Proof/Machine/Input.lean ====
section
/-! DEFINITION. The Input component (spec/60_exceptions.md R198 to R201): the query is_pressed and the host's press and
release. No instruction calls any of them (spec/10_state.md R24). -/

namespace Sys2Proof.Machine

/-- `is_pressed(key)` (60_exceptions.md R199): changes nothing; a key over 15 fails with InvalidKey. -/
def State.isPressed (s : State) (key : Nat) : Except FaultKind Bool :=
  if key < 16 then .ok (s.keys.getLsbD key) else .error .invalidKey

/-- The bitmap with bit `key` set to `v`, the other bits unchanged. -/
def setKeyBit (keys : BitVec 16) (key : Nat) (v : Bool) : BitVec 16 :=
  if v then keys ||| BitVec.twoPow 16 key else keys &&& ~~~(BitVec.twoPow 16 key)

/-- `press(key)` (60_exceptions.md R200); the range failure is the spec's decision D15 (log entry 12). -/
def State.press (s : State) (key : Nat) : Except FaultKind State :=
  if key < 16 then .ok { s with keys := setKeyBit s.keys key true } else .error .invalidKey

/-- `release(key)` (60_exceptions.md R201; log entry 12). -/
def State.release (s : State) (key : Nat) : Except FaultKind State :=
  if key < 16 then .ok { s with keys := setKeyBit s.keys key false } else .error .invalidKey

end Sys2Proof.Machine
end

