-- ==== Sys2Proof/Machine/Boundary.lean ====
section
/-! DEFINITION. The operations at the block boundary (spec/60_exceptions.md R202): reset, program load, step, press,
release, framebuffer read. Each is one atomic transition, wholly between two steps (R204; log entry 14). -/

namespace Sys2Proof.Machine

/-- Something the host does to the block. -/
inductive HostOp where
  /-- Construction and initialisation (70_reset_and_hazards.md R220). -/
  | reset
  /-- Program load of an image at 0x200 (70_reset_and_hazards.md R222). -/
  | load (image : List Byte)
  /-- One instruction and one timer tick (40_step_cycle.md R115). -/
  | step
  /-- A key goes down (60_exceptions.md R200). -/
  | press (key : Nat)
  /-- A key goes up (60_exceptions.md R201). -/
  | release (key : Nat)
  /-- Read-only inspection of the display (60_exceptions.md R203). -/
  | readFramebuffer
  deriving DecidableEq, Repr

/-- What the host gets back. -/
inductive Reply where
  /-- The operation succeeded. -/
  | ok
  /-- It failed with this kind and nothing else is reported (60_exceptions.md R187). -/
  | failed (kind : FaultKind)
  /-- The pixel values in row-major order. -/
  | pixels (values : List Bool)
  /-- The operation is not defined in this status: a step or a load when Faulted (60_exceptions.md R202). -/
  | notDefined
  deriving DecidableEq, Repr

/-- The ordinal of a fault kind: "for reporting only" (60_exceptions.md R180; D10, log entry 24). -/
def FaultKind.ordinal : FaultKind → Nat
  | .memoryBounds => 1
  | .decodeError => 2
  | .stackOverflow => 3
  | .stackUnderflow => 4
  | .invalidDigit => 5
  | .invalidKey => 6

/-- Reset: defined in every state, and the only operation that leaves Faulted; the parameters stay
(70_reset_and_hazards.md R220; D19, log entry 14). -/
def State.resetOp (s : State) : State := State.resetWith s.config

/-- Program load, the bounded copy of an image to 0x200 (70_reset_and_hazards.md R222; D18, log entry 14). -/
def State.loadProgram (s : State) (image : List Byte) : Except FaultKind State := s.load image loadAddr

/-- The reply and the state after a host operation that may fail: on failure nothing changes, status included
(60_exceptions.md R187). -/
def State.replyOf (s : State) : Except FaultKind State → Reply × State
  | .ok t => (.ok, t)
  | .error kind => (.failed kind, s)

/-- The report of a step whose outcome is `o`: Ok, or Fault(kind) with the state in which the core stopped
(40_step_cycle.md R115). -/
def State.replyOfStep (s : State) : Host.Outcome State Fault Refusal → Reply × State
  | .next t =>
    match t.status with
    | .running => (.ok, t)
    | .faulted kind => (.failed kind, t)
  | .fault _ => (.notDefined, s)
  | .refused _ => (.notDefined, s)

/-- The block boundary: what the host asks, in which state; the reply and the state after (60_exceptions.md R202). -/
def operate (op : HostOp) (s : State) : Reply × State :=
  match op with
  | .reset => (.ok, s.resetOp)
  | .load image =>
    match s.status with
    | .running => s.replyOf (s.loadProgram image)
    | .faulted _ => (.notDefined, s)
  | .step => s.replyOfStep (Sys2Proof.Machine.step s)
  | .press key => s.replyOf (s.press key)
  | .release key => s.replyOf (s.release key)
  | .readFramebuffer => (.pixels s.fb.pixels, s)

/-- The state after a sequence of host operations, the first first: a session (00_scope.md R16). -/
def session : List HostOp → State → State
  | [], s => s
  | op :: rest, s => session rest (operate op s).2

end Sys2Proof.Machine
end

