-- ==== Sys2Proof/Safety.lean ====
section
/-! DEFINITION. The terms claims about rust8 CORE are stated in: what a step or an instruction leaves unchanged, what
each instruction may write (spec/10_state.md R24), the invariants of the state, and a safe run. -/

namespace Sys2Proof.Machine

/-! ### Frames -/

/-- The state an instruction may write, besides `pc`. Where a field is not given, nothing of that kind is written. -/
structure Touches where
  /-- General registers. -/
  reg : Reg → Prop := fun _ => False
  /-- The address register. -/
  I : Prop := False
  /-- Call-stack slots. -/
  slot : Fin 16 → Prop := fun _ => False
  /-- The stack pointer. -/
  sp : Prop := False
  /-- Memory addresses. -/
  byte : Nat → Prop := fun _ => False
  /-- Pixels, row then column. -/
  pixel : Fin 32 → Fin 64 → Prop := fun _ _ => False

/-- From `s` to `t` nothing changed but `pc` and what `w` names: every other register, slot, memory byte and pixel, the
timers, the key bitmap, the status and the parameters are as before. -/
def OnlyTouches (w : Touches) (s t : State) : Prop :=
  (∀ r, ¬ w.reg r → t.reg r = s.reg r) ∧
  (¬ w.I → t.I = s.I) ∧
  (∀ k, ¬ w.slot k → t.slot k = s.slot k) ∧
  (¬ w.sp → t.sp = s.sp) ∧
  (∀ a, ¬ w.byte a → t.readByte a = s.readByte a) ∧
  (∀ y x, ¬ w.pixel y x → t.fb.pixel y x = s.fb.pixel y x) ∧
  t.DT = s.DT ∧ t.ST = s.ST ∧ t.keys = s.keys ∧ t.status = s.status ∧ t.config = s.config

/-- Pixel `(px, py)` lies in the area of a sprite of `n` rows drawn at `(ox, oy)`, with wrap-around (43_display.md
R153). -/
def InSpriteArea (ox oy n : Nat) (py : Fin 32) (px : Fin 64) : Prop :=
  ∃ i, i < n ∧ ∃ b, b < 8 ∧ py.val = (oy + i) % 32 ∧ px.val = (ox + b) % 64

/-- A 1 bit of the sprite drawn at `(ox, oy)` falls on pixel `(px, py)`: offset `b` of row `i` is bit `7 - b` of its
byte (43_display.md R152, R153). -/
def SpriteFlips (sprite : List Byte) (ox oy : Nat) (py : Fin 32) (px : Fin 64) : Prop :=
  ∃ i, ∃ h : i < sprite.length, ∃ b, b < 8 ∧
    py.val = (oy + i) % 32 ∧ px.val = (ox + b) % 64 ∧ sprite[i].getLsbD (7 - b) = true

/-- The `writes` column of the table of 10_state.md R24. -/
def touchesOf (i : Instr) (s : State) : Touches :=
  match i with
  | .cls => { pixel := fun _ _ => True }
  | .ret => { sp := True }
  | .jp _ => {}
  | .call _ => { slot := fun k => k.val = s.sp.val, sp := True }
  | .se _ _ => {}
  | .ldk x _ => { reg := fun r => r = x }
  | .addk x _ => { reg := fun r => r = x }
  | .mov x _ => { reg := fun r => r = x }
  | .ldi _ => { I := True }
  | .drw x y n => { reg := fun r => r = 15, pixel := InSpriteArea (s.reg x).toNat (s.reg y).toNat n }
  | .ldf _ => { I := True }
  | .bcd _ => { byte := fun a => s.effectiveAddress 0 ≤ a ∧ a < s.effectiveAddress 3 }
  | .stm x => { byte := fun a => s.effectiveAddress 0 ≤ a ∧ a ≤ s.effectiveAddress x.val }
  | .ldm x => { reg := fun r => r ≤ x }

/-! ### Outcomes -/

/-- A function of the state applied to an outcome's next state. -/
def mapNext (f : State → State) : Host.Outcome State Fault Refusal → Host.Outcome State Fault Refusal
  | .next t => .next (f t)
  | .fault r => .fault r
  | .refused r => .refused r

/-- A step that completes: it answers a next state and has not faulted. -/
def StepCompletes (s t : State) : Prop := step s = .next t ∧ t.status = .running

/-- A safe run of `n` steps: every one of them completes (40_step_cycle.md R117: "a run that reaches one has ended in
failure"). -/
def SafeFor : Nat → State → Prop
  | 0, s => s.status = .running
  | n + 1, s => ∃ t, StepCompletes s t ∧ SafeFor n t

/-! ### Invariants -/

/-- Memory is in canonical form. -/
def State.MemoryCanonical (s : State) : Prop := Memory.wf s.config s.mem

/-- The ranges of `I`, `pc` and the stack entries that hold from reset (10_state.md R25, R28): `I` is 0 to 0xFFF, `pc`
0 to 0x1002, and every slot 0 to 0xFFE. -/
def State.AddressesInRange (s : State) : Prop :=
  s.I.toNat ≤ 0xFFF ∧ s.pc.toNat ≤ 0x1002 ∧ ∀ k, (s.slot k).toNat ≤ 0xFFE

/-- Both timers are 0, as they are from reset on (10_state.md R29). -/
def State.TimersAtZero (s : State) : Prop := s.DT = 0 ∧ s.ST = 0

end Sys2Proof.Machine
end

