-- ==== Sys2Proof/Certificates/Slice0/Obligations.lean ====
section
/-! DEFINITION. The statements about rust8 CORE, from the numbered rules of spec/. A fault is a next state whose status is
Faulted(kind) and whose other fields are as before (the model's form of 60_exceptions.md R190; log entries 1 and 9). -/

open Sys2Proof Sys2Proof.Machine

/-! ### Instructions: what each does, with its frame -/

/-- 41_control_flow.md R130. JP completes in every state with `pc = nnn`, touches nothing else, and is what every word
with first nibble 1 decodes to. -/
def Obligations.JpSetsPcToImmediate : Prop :=
  (∀ nnn s, ∃ t, exec (.jp nnn) s = .next t ∧ t.pc = nnn ∧ OnlyTouches {} s t) ∧
  ∀ w : Word, w.toNat / 4096 = 1 → decodeWord w = some (.jp (BitVec.ofNat 16 (w.toNat % 4096)))

/-- 41_control_flow.md R131, the case `sp < 16`. CALL completes: it pushes its own address, counts it, and goes to
`nnn`; every word with first nibble 2 decodes to it. -/
def Obligations.CallPushesOwnAddress : Prop :=
  (∀ nnn s, ∀ h : s.sp.val < 16, ∃ t, exec (.call nnn) s = .next t ∧
    t.slot ⟨s.sp.val, h⟩ = s.pc ∧ t.sp.val = s.sp.val + 1 ∧ t.pc = nnn ∧
    OnlyTouches { slot := fun k => k.val = s.sp.val, sp := True } s t) ∧
  ∀ w : Word, w.toNat / 4096 = 2 → decodeWord w = some (.call (BitVec.ofNat 16 (w.toNat % 4096)))

/-- 41_control_flow.md R133, the case `sp > 0`. RET completes: it uncounts the top entry and goes two past it; the
popped slot keeps its value (log entry 11) and the sum is modulo 65536 (log entry 10). -/
def Obligations.RetReturnsPastCallSite : Prop :=
  (∀ s : State, ∀ h : 0 < s.sp.val, ∃ t, exec .ret s = .next t ∧ t.sp.val = s.sp.val - 1 ∧
    t.pc = s.slot ⟨s.sp.val - 1, by have := s.sp.isLt; omega⟩ + 2 ∧
    OnlyTouches { sp := True } s t) ∧
  decodeWord 0x00EE = some .ret

/-- 41_control_flow.md R134. SE completes in every state, skips one instruction exactly when `V[x] = kk`, and touches
nothing else. -/
def Obligations.SeSkipsExactlyOnEqual : Prop :=
  (∀ x kk s, ∃ t, exec (.se x kk) s = .next t ∧
    t.pc = (if s.reg x = kk then s.pc + 4 else s.pc + 2) ∧ OnlyTouches {} s t) ∧
  ∀ w : Word, w.toNat / 4096 = 3 →
    decodeWord w = some (.se (Fin.ofNat 16 (w.toNat / 256)) (BitVec.ofNat 8 w.toNat))

/-- 42_register_ops.md R140. -/
def Obligations.LdkLoadsImmediate : Prop :=
  (∀ x kk s, ∃ t, exec (.ldk x kk) s = .next t ∧ t.reg x = kk ∧ t.pc = s.pc + 2 ∧
    OnlyTouches { reg := fun r => r = x } s t) ∧
  ∀ w : Word, w.toNat / 4096 = 6 →
    decodeWord w = some (.ldk (Fin.ofNat 16 (w.toNat / 256)) (BitVec.ofNat 8 w.toNat))

/-- 42_register_ops.md R141. The sum wraps modulo 256 and no other register, `V[15]` among them, changes. -/
def Obligations.AddkWrapsWithoutFlag : Prop :=
  (∀ x kk s, ∃ t, exec (.addk x kk) s = .next t ∧
    (t.reg x).toNat = ((s.reg x).toNat + kk.toNat) % 256 ∧ t.pc = s.pc + 2 ∧
    OnlyTouches { reg := fun r => r = x } s t) ∧
  ∀ w : Word, w.toNat / 4096 = 7 →
    decodeWord w = some (.addk (Fin.ofNat 16 (w.toNat / 256)) (BitVec.ofNat 8 w.toNat))

/-- 42_register_ops.md R142, 30_encoding.md R87. All sixteen low nibbles decode to the same MOV. -/
def Obligations.MovCopiesRegister : Prop :=
  (∀ x y s, ∃ t, exec (.mov x y) s = .next t ∧ t.reg x = s.reg y ∧ t.pc = s.pc + 2 ∧
    OnlyTouches { reg := fun r => r = x } s t) ∧
  ∀ w : Word, w.toNat / 4096 = 8 →
    decodeWord w = some (.mov (Fin.ofNat 16 (w.toNat / 256)) (Fin.ofNat 16 (w.toNat / 16)))

/-- 42_register_ops.md R143. -/
def Obligations.LdiLoadsAddressRegister : Prop :=
  (∀ nnn s, ∃ t, exec (.ldi nnn) s = .next t ∧ t.I = nnn ∧ t.pc = s.pc + 2 ∧ OnlyTouches { I := True } s t) ∧
  ∀ w : Word, w.toNat / 4096 = 10 → decodeWord w = some (.ldi (BitVec.ofNat 16 (w.toNat % 4096)))

/-- 42_register_ops.md R144, the case `V[x] <= 15`. -/
def Obligations.LdfPointsToGlyph : Prop :=
  (∀ x (s : State), (s.reg x).toNat ≤ 15 → ∃ t, exec (.ldf x) s = .next t ∧
    t.I.toNat = s.config.fontBase.val + 5 * (s.reg x).toNat ∧ t.pc = s.pc + 2 ∧ OnlyTouches { I := True } s t) ∧
  ∀ w : Word, w.toNat / 4096 = 15 → w.toNat % 256 = 0x29 → decodeWord w = some (.ldf (Fin.ofNat 16 (w.toNat / 256)))

/-- 43_display.md R156, R151. -/
def Obligations.ClsTurnsEveryPixelOff : Prop :=
  (∀ s, ∃ t, exec .cls s = .next t ∧ (∀ y x, t.fb.pixel y x = false) ∧ t.pc = s.pc + 2 ∧
    OnlyTouches { pixel := fun _ _ => True } s t) ∧
  decodeWord 0x00E0 = some .cls

/-- 43_display.md R157, the case `I + n <= 4096`. DRW completes; exactly the pixels under 1 bits of the sprite flip, and
`V[15]` is 1 when one of them was on and 0 when none was. The origins are the registers' old values. -/
def Obligations.DrwFlipsSpriteAndReportsCollision : Prop :=
  (∀ x y n s, n < 16 → s.effectiveAddress 0 + n ≤ 4096 → ∃ t sprite, exec (.drw x y n) s = .next t ∧
    s.readSlice (s.effectiveAddress 0) n = .ok sprite ∧
    (∀ py px, t.fb.pixel py px ≠ s.fb.pixel py px ↔ SpriteFlips sprite (s.reg x).toNat (s.reg y).toNat py px) ∧
    ((∃ py px, SpriteFlips sprite (s.reg x).toNat (s.reg y).toNat py px ∧ s.fb.pixel py px = true) → t.reg 15 = 1) ∧
    ((¬ ∃ py px, SpriteFlips sprite (s.reg x).toNat (s.reg y).toNat py px ∧ s.fb.pixel py px = true) → t.reg 15 = 0) ∧
    t.pc = s.pc + 2 ∧
    OnlyTouches { reg := fun r => r = 15, pixel := InSpriteArea (s.reg x).toNat (s.reg y).toNat n } s t) ∧
  ∀ w : Word, w.toNat / 4096 = 13 →
    decodeWord w = some (.drw (Fin.ofNat 16 (w.toNat / 256)) (Fin.ofNat 16 (w.toNat / 16)) (w.toNat % 16))

/-- 44_memory_transfer.md R170, the case `I + 3 <= 4096`. -/
def Obligations.BcdStoresDecimalDigits : Prop :=
  (∀ x (s : State), s.effectiveAddress 0 + 3 ≤ 4096 → ∃ t h d o, exec (.bcd x) s = .next t ∧
    t.readByte (s.effectiveAddress 0) = .ok h ∧ t.readByte (s.effectiveAddress 1) = .ok d ∧
    t.readByte (s.effectiveAddress 2) = .ok o ∧
    h.toNat = (s.reg x).toNat / 100 ∧ d.toNat = (s.reg x).toNat / 10 % 10 ∧ o.toNat = (s.reg x).toNat % 10 ∧
    100 * h.toNat + 10 * d.toNat + o.toNat = (s.reg x).toNat ∧ t.pc = s.pc + 2 ∧
    OnlyTouches { byte := fun a => s.effectiveAddress 0 ≤ a ∧ a < s.effectiveAddress 0 + 3 } s t) ∧
  ∀ w : Word, w.toNat / 4096 = 15 → w.toNat % 256 = 0x33 → decodeWord w = some (.bcd (Fin.ofNat 16 (w.toNat / 256)))

/-- 44_memory_transfer.md R171, the case `I + x + 1 <= 4096`. -/
def Obligations.StmStoresRegisters : Prop :=
  (∀ (x : Reg) (s : State), s.effectiveAddress 0 + x.val + 1 ≤ 4096 → ∃ t, exec (.stm x) s = .next t ∧
    (∀ r : Reg, r ≤ x → t.readByte (s.effectiveAddress r.val) = .ok (s.reg r)) ∧ t.pc = s.pc + 2 ∧
    OnlyTouches { byte := fun a => s.effectiveAddress 0 ≤ a ∧ a < s.effectiveAddress 0 + (x.val + 1) } s t) ∧
  ∀ w : Word, w.toNat / 4096 = 15 → w.toNat % 256 = 0x55 → decodeWord w = some (.stm (Fin.ofNat 16 (w.toNat / 256)))

/-- 44_memory_transfer.md R172, the case `I + x + 1 <= 4096`. -/
def Obligations.LdmLoadsRegisters : Prop :=
  (∀ (x : Reg) (s : State), s.effectiveAddress 0 + x.val + 1 ≤ 4096 → ∃ t, exec (.ldm x) s = .next t ∧
    (∀ r : Reg, r ≤ x → s.readByte (s.effectiveAddress r.val) = .ok (t.reg r)) ∧ t.pc = s.pc + 2 ∧
    OnlyTouches { reg := fun r => r ≤ x } s t) ∧
  ∀ w : Word, w.toNat / 4096 = 15 → w.toNat % 256 = 0x65 → decodeWord w = some (.ldm (Fin.ofNat 16 (w.toNat / 256)))

/-! ### Instructions: where they fault (log entries 1 and 9) -/

/-- CALL with sixteen entries in use raises StackOverflow and RET with none raises StackUnderflow; nothing is pushed or
popped (60_exceptions.md R183, R184; the state after is the spec's decision D8). -/
def Obligations.CallAndRetFaultAtStackLimits : Prop :=
  (∀ nnn s, s.sp.val = 16 → exec (.call nnn) s = .next { s with status := .faulted .stackOverflow }) ∧
  ∀ s, s.sp.val = 0 → exec .ret s = .next { s with status := .faulted .stackUnderflow }

/-- LDF of a value over 15 raises InvalidDigit: the value is not masked or clamped (60_exceptions.md R185; D8). -/
def Obligations.LdfFaultsOnDigitOverFifteen : Prop :=
  ∀ x s, 15 < (s.reg x).toNat → exec (.ldf x) s = .next { s with status := .faulted .invalidDigit }

/-- DRW, BCD, STM and LDM raise MemoryBounds when their range leaves memory, with no partial effect (60_exceptions.md
R181; D7, D8). -/
def Obligations.TransfersFaultOutsideMemory : Prop :=
  (∀ x y n s, 4096 < s.effectiveAddress 0 + n →
    exec (.drw x y n) s = .next { s with status := .faulted .memoryBounds }) ∧
  (∀ x s, 4096 < s.effectiveAddress 0 + 3 → exec (.bcd x) s = .next { s with status := .faulted .memoryBounds }) ∧
  (∀ (x : Reg) s, 4096 < s.effectiveAddress 0 + (x.val + 1) →
    exec (.stm x) s = .next { s with status := .faulted .memoryBounds }) ∧
  ∀ (x : Reg) s, 4096 < s.effectiveAddress 0 + (x.val + 1) →
    exec (.ldm x) s = .next { s with status := .faulted .memoryBounds }

/-! ### Instructions: all of them together -/

/-- The `writes` column of the table of 10_state.md R24, over all fourteen instructions: every outcome is a next state
that touches what the table lists and nothing else, or the fault entered with nothing touched. -/
def Obligations.WriteTableIsExhaustive : Prop :=
  ∀ i s, ∃ t, exec i s = .next t ∧ (OnlyTouches (touchesOf i s) s t ∨ ∃ k, t = { s with status := .faulted k })

/-- 41_control_flow.md R132: a RET that finds the entry a CALL pushed returns to the instruction after that CALL,
whatever happened in between. -/
def Obligations.CallThenRetResumesAfterCall : Prop :=
  ∀ nnn s t u, ∀ h : s.sp.val < 16, exec (.call nnn) s = .next t → u.sp = t.sp →
    u.slot ⟨s.sp.val, h⟩ = t.slot ⟨s.sp.val, h⟩ →
    ∃ v, exec .ret u = .next v ∧ v.sp = s.sp ∧ v.pc = s.pc + 2 ∧ OnlyTouches { sp := True } u v

/-- 20_memory.md R66: bytes stored by STM over the next instruction are the word the next fetch gets. -/
def Obligations.StoredWordIsFetchedNext : Prop :=
  ∀ (x : Reg) s, 1 ≤ x.val → s.effectiveAddress 0 = s.pc.toNat + 2 → s.effectiveAddress 0 + x.val + 1 ≤ 4096 →
    ∃ t w, exec (.stm x) s = .next t ∧ t.fetch = .ok w ∧ w.toNat = (s.reg 0).toNat * 256 + (s.reg 1).toNat

/-! ### The step -/

/-- 40_step_cycle.md R115: when the two bytes at `pc` decode to an instruction, a step of a Running core is the
execution of that instruction followed, unless it faulted, by the timer tick. -/
def Obligations.StepRunsDecodedInstruction : Prop :=
  ∀ s hi lo i t, s.status = .running → s.readByte s.pc.toNat = .ok hi → s.readByte (s.pc.toNat + 1) = .ok lo →
    decode [hi, lo] = .ok (i, []) → exec i s = .next t →
    (t.status = .running → step s = .next { t with DT := tickTimer t.DT, ST := tickTimer t.ST }) ∧
    ∀ k, t.status = .faulted k → step s = .next t

/-- 40_step_cycle.md R111 and R112, with the spec's decision D8: a Running core at `pc >= 4095` raises MemoryBounds; one
whose two bytes at `pc` match no table row raises DecodeError; nothing but the status changes. -/
def Obligations.FetchAndDecodeFaults : Prop :=
  (∀ s, s.status = .running → 4095 ≤ s.pc.toNat → step s = .next { s with status := .faulted .memoryBounds }) ∧
  ∀ s hi lo w, s.status = .running → s.readByte s.pc.toNat = .ok hi → s.readByte (s.pc.toNat + 1) = .ok lo →
    decode [hi, lo] = .error (.noTableRow w) → step s = .next { s with status := .faulted .decodeError }

/-- 40_step_cycle.md R117, the spec's decision D9: no step is defined in status Faulted (log entry 2). -/
def Obligations.NoStepWhileFaulted : Prop :=
  ∀ s k, s.status = .faulted k → step s = .fault (.noStepWhileFaulted k)

/-- 40_step_cycle.md R116 and 60_exceptions.md R186, with the spec's decision D8: a step of a Running core always answers
a next state; if it faulted, nothing but the status changed, the timers included, and the kind is not InvalidKey. -/
def Obligations.FaultingStepChangesOnlyStatus : Prop :=
  ∀ s, s.status = .running → ∃ t, step s = .next t ∧
    (t.status = .running ∨ ∃ k, k ≠ .invalidKey ∧ t = { s with status := .faulted k })

/-- 60_exceptions.md R195: every completing step takes each timer down by 1, a timer at 0 staying 0. -/
def Obligations.CompletingStepTicksTimers : Prop :=
  ∀ s t, StepCompletes s t → t.DT.toNat = s.DT.toNat - 1 ∧ t.ST.toNat = s.ST.toNat - 1

/-- 40_step_cycle.md R118, 10_state.md R32: `keys` never influences a step and no step changes it. -/
def Obligations.KeysNeverInfluenceSteps : Prop :=
  ∀ s keys, s.status = .running →
    step { s with keys := keys } = mapNext (fun t => { t with keys := keys }) (step s) ∧
    ∀ t, step s = .next t → t.keys = s.keys

/-- 40_step_cycle.md R119: a Running core at a JP to its own address runs for ever, safely. -/
def Obligations.SelfJumpRunsForever : Prop :=
  ∀ s hi lo, s.status = .running → s.readByte s.pc.toNat = .ok hi → s.readByte (s.pc.toNat + 1) = .ok lo →
    decode [hi, lo] = .ok (.jp s.pc, []) →
    ∀ n, SafeFor n s ∧ ∀ t, step s = .next t → t = { s with DT := t.DT, ST := t.ST }

/-! ### Decoding and encoding -/

/-- Words written out from the encodings of 30_encoding.md R86, one of each of its six formats, and the two memory
formats' neighbours (R88). -/
def Obligations.SampleWordsDecode : Prop :=
  decode [0x00, 0xE0] = .ok (.cls, []) ∧ decode [0x2A, 0xBC] = .ok (.call 0xABC, []) ∧
  decode [0x3F, 0x00] = .ok (.se 15 0x00, []) ∧ decode [0x81, 0x2F] = .ok (.mov 1 2, []) ∧
  decode [0xDA, 0xBC] = .ok (.drw 10 11 12, []) ∧ decode [0xF1, 0x33] = .ok (.bcd 1, []) ∧
  decode [0x00, 0x00] = .error (.noTableRow 0x0000) ∧ decode [0xF0, 0x34] = .error (.noTableRow 0xF034)

/-- 30_encoding.md R95: the bytes of every well-formed instruction decode to it, whatever follows them. -/
def Obligations.DecodeInvertsEncode : Prop :=
  ∀ i : Instr, i.WellFormed → ∀ rest, decode (encodeBytes i ++ rest) = .ok (i, rest)

/-- 30_encoding.md R95: "Decoding followed by encoding returns the same word for every legal word except the MOV words
with a non-zero low nibble, which re-encode with low nibble 0", and the bytes are the word's high byte, then its low. The canonical low nibble 0 is
the spec's decision D11 (log entry 18). -/
def Obligations.EncodeInvertsDecodeButMovNibble : Prop :=
  (∀ w i, decodeWord w = some i →
    (encode i).toNat = if w.toNat / 4096 = 8 then w.toNat - w.toNat % 16 else w.toNat) ∧
  ∀ i, ∃ hi lo : Byte, encodeBytes i = [hi, lo] ∧ hi.toNat = (encode i).toNat / 256 ∧ lo.toNat = (encode i).toNat % 256

/-- 30_encoding.md R85: no word selects two rows of the table. -/
def Obligations.NoWordSelectsTwoRows : Prop :=
  ∀ (w : Word) (j k : Fin opcodeTable.length),
    opcodeTable[j].selects w = true → opcodeTable[k].selects w = true → j = k

/-- 30_encoding.md R88: the opcode map, which words decode and which raise DecodeError. -/
def Obligations.OpcodeMapOfIllegalWords : Prop :=
  ∀ w : Word, decodeWord w = none ↔
    (w.toNat / 4096 = 0 ∧ w.toNat ≠ 0x00E0 ∧ w.toNat ≠ 0x00EE) ∨ w.toNat / 4096 = 4 ∨ w.toNat / 4096 = 5 ∨
    w.toNat / 4096 = 9 ∨ w.toNat / 4096 = 11 ∨ w.toNat / 4096 = 12 ∨ w.toNat / 4096 = 14 ∨
    (w.toNat / 4096 = 15 ∧ w.toNat % 256 ≠ 0x29 ∧ w.toNat % 256 ≠ 0x33 ∧ w.toNat % 256 ≠ 0x55 ∧ w.toNat % 256 ≠ 0x65)

/-- 30_encoding.md R82: whatever decodes is well-formed. -/
def Obligations.DecodedInstructionsAreWellFormed : Prop :=
  ∀ bytes i rest, decode bytes = .ok (i, rest) → i.WellFormed ∧ bytes.length = rest.length + 2

/-! ### The assembler (the spec's own syntax, its decision D11; log entry 25) -/

/-- 30_encoding.md R93: the instruction of each of its fourteen forms, the destination first, a line with an operand out
of range rejected; nothing but these forms is an instruction; and the line of characters that writes a well-formed
instruction assembles to its encoding, which decodes to it. -/
def Obligations.AssemblerLinesEncodeInstructions : Prop :=
  assembleInstr ['C', 'L', 'S'] [] = some .cls ∧
  assembleInstr ['R', 'E', 'T'] [] = some .ret ∧
  (∀ v, assembleInstr ['J', 'P'] [.imm v] = if v ≤ 0xFFF then some (.jp (BitVec.ofNat 16 v)) else none) ∧
  (∀ v, assembleInstr ['C', 'A', 'L', 'L'] [.imm v] = if v ≤ 0xFFF then some (.call (BitVec.ofNat 16 v)) else none) ∧
  (∀ x v, assembleInstr ['S', 'E'] [.reg x, .imm v] = if v ≤ 0xFF then some (.se x (BitVec.ofNat 8 v)) else none) ∧
  (∀ x v, assembleInstr ['L', 'D', 'K'] [.reg x, .imm v] = if v ≤ 0xFF then some (.ldk x (BitVec.ofNat 8 v)) else none) ∧
  (∀ x v, assembleInstr ['A', 'D', 'D', 'K'] [.reg x, .imm v] =
    if v ≤ 0xFF then some (.addk x (BitVec.ofNat 8 v)) else none) ∧
  (∀ x y, assembleInstr ['M', 'O', 'V'] [.reg x, .reg y] = some (.mov x y)) ∧
  (∀ v, assembleInstr ['L', 'D', 'I'] [.imm v] = if v ≤ 0xFFF then some (.ldi (BitVec.ofNat 16 v)) else none) ∧
  (∀ x y v, assembleInstr ['D', 'R', 'W'] [.reg x, .reg y, .imm v] = if v ≤ 15 then some (.drw x y v) else none) ∧
  (∀ x, assembleInstr ['L', 'D', 'F'] [.reg x] = some (.ldf x)) ∧
  (∀ x, assembleInstr ['B', 'C', 'D'] [.reg x] = some (.bcd x)) ∧
  (∀ x, assembleInstr ['S', 'T', 'M'] [.reg x] = some (.stm x)) ∧
  (∀ x, assembleInstr ['L', 'D', 'M'] [.reg x] = some (.ldm x)) ∧
  (∀ mnemonic operands i, assembleInstr mnemonic operands = some i ↔ i.WellFormed ∧ asmForm i = (mnemonic, operands)) ∧
  (∀ mnemonic operands i, assembleInstr mnemonic operands = some i →
    assembleParts mnemonic operands = some (encodeBytes i)) ∧
  ∀ i : Instr, i.WellFormed →
    assembleLine (lineOf i) = some (encodeBytes i) ∧ decode (encodeBytes i) = .ok (i, [])

/-- 30_encoding.md R93, first and second column: the word that each of its fourteen lines of characters assembles to,
and the rejection of an operand out of range. -/
def Obligations.AssemblerLinesGiveTableWords : Prop :=
  assembleLine (asmLine ['C', 'L', 'S'] []) = some (asmWordBytes 0x00E0) ∧
  assembleLine (asmLine ['R', 'E', 'T'] []) = some (asmWordBytes 0x00EE) ∧
  (∀ v, assembleLine (asmLine ['J', 'P'] [.imm v]) = if v ≤ 0xFFF then some (asmWordBytes (0x1000 + v)) else none) ∧
  (∀ v, assembleLine (asmLine ['C', 'A', 'L', 'L'] [.imm v]) =
    if v ≤ 0xFFF then some (asmWordBytes (0x2000 + v)) else none) ∧
  (∀ x v, assembleLine (asmLine ['S', 'E'] [.reg x, .imm v]) =
    if v ≤ 0xFF then some (asmWordBytes (0x3000 + x.val * 256 + v)) else none) ∧
  (∀ x v, assembleLine (asmLine ['L', 'D', 'K'] [.reg x, .imm v]) =
    if v ≤ 0xFF then some (asmWordBytes (0x6000 + x.val * 256 + v)) else none) ∧
  (∀ x v, assembleLine (asmLine ['A', 'D', 'D', 'K'] [.reg x, .imm v]) =
    if v ≤ 0xFF then some (asmWordBytes (0x7000 + x.val * 256 + v)) else none) ∧
  (∀ x y, assembleLine (asmLine ['M', 'O', 'V'] [.reg x, .reg y]) =
    some (asmWordBytes (0x8000 + x.val * 256 + y.val * 16))) ∧
  (∀ v, assembleLine (asmLine ['L', 'D', 'I'] [.imm v]) = if v ≤ 0xFFF then some (asmWordBytes (0xA000 + v)) else none) ∧
  (∀ x y v, assembleLine (asmLine ['D', 'R', 'W'] [.reg x, .reg y, .imm v]) =
    if v ≤ 15 then some (asmWordBytes (0xD000 + x.val * 256 + y.val * 16 + v)) else none) ∧
  (∀ x, assembleLine (asmLine ['L', 'D', 'F'] [.reg x]) = some (asmWordBytes (0xF029 + x.val * 256))) ∧
  (∀ x, assembleLine (asmLine ['B', 'C', 'D'] [.reg x]) = some (asmWordBytes (0xF033 + x.val * 256))) ∧
  (∀ x, assembleLine (asmLine ['S', 'T', 'M'] [.reg x]) = some (asmWordBytes (0xF055 + x.val * 256))) ∧
  ∀ x, assembleLine (asmLine ['L', 'D', 'M'] [.reg x]) = some (asmWordBytes (0xF065 + x.val * 256))

/-- 30_encoding.md R93 and R94: a line of a mnemonic and operands written out, whichever they are, is read as that
mnemonic and those operands; a written operand, an immediate in decimal too, is read as that operand; DW emits two
bytes, high byte first, and DB one. -/
def Obligations.AssemblerReadsWrittenLines : Prop :=
  (∀ mnemonic operands, mnemonic ≠ [] → (∀ c ∈ mnemonic, c ≠ ' ') →
    assembleLine (asmLine mnemonic operands) = assembleParts mnemonic operands) ∧
  (∀ o : AsmOperand, parseOperand o.text = some o) ∧
  (∀ v, parseOperand (numeral 10 v) = some (.imm v)) ∧
  parseOperand ['V', 'F'] = some (.reg 15) ∧ parseOperand ['0', 'x', '2', 'A'] = some (.imm 42) ∧
  parseOperand ['4', '2'] = some (.imm 42) ∧
  (∀ v, assembleLine (asmLine ['D', 'W'] [.imm v]) =
    if v ≤ 0xFFFF then some [BitVec.ofNat 8 (v / 256), BitVec.ofNat 8 (v % 256)] else none) ∧
  ∀ v, assembleLine (asmLine ['D', 'B'] [.imm v]) = if v ≤ 0xFF then some [BitVec.ofNat 8 v] else none

/-! ### The Memory controller -/

/-- 20_memory.md R52: a byte write inside memory sets that byte and changes nothing else; outside it fails. -/
def Obligations.WriteByteSetsOneByte : Prop :=
  ∀ (s : State) a b,
    (a ≤ 4095 → ∃ t, s.writeByte a b = .ok t ∧ t.readByte a = .ok b ∧ t.pc = s.pc ∧
      OnlyTouches { byte := fun q => q = a } s t) ∧
    (4095 < a → s.writeByte a b = .error .memoryBounds)

/-- 20_memory.md R53: a word read is big-endian over two byte reads, and fails as a whole where the second byte is not
in memory. That a read out of range raises MemoryBounds is the spec's decision D7 (log entry 8). -/
def Obligations.ReadWordIsBigEndian : Prop :=
  ∀ (s : State) a,
    (a + 1 ≤ 4095 → ∃ hi lo w, s.readByte a = .ok hi ∧ s.readByte (a + 1) = .ok lo ∧ s.readWord a = .ok w ∧
      w.toNat = hi.toNat * 256 + lo.toNat) ∧
    (4095 < a + 1 → s.readWord a = .error .memoryBounds)

/-- 20_memory.md R55: a load that fits copies the buffer, which a slice read gives back, and changes no other byte and
nothing else; one that does not fit fails. -/
def Obligations.LoadThenReadSliceRoundTrip : Prop :=
  ∀ (s : State) buffer a,
    (a + buffer.length ≤ 4096 → ∃ t, s.load buffer a = .ok t ∧ t.readSlice a buffer.length = .ok buffer ∧
      t.pc = s.pc ∧ OnlyTouches { byte := fun q => a ≤ q ∧ q < a + buffer.length } s t) ∧
    (4096 < a + buffer.length → s.load buffer a = .error .memoryBounds)

/-! ### The Display -/

/-- 43_display.md R154: a draw reports a collision exactly when a 1 bit of the sprite falls on a pixel that was on. The
sprite has at most 32 rows (R155; DRW draws at most 15). -/
def Obligations.CollisionIffLitPixelHit : Prop :=
  ∀ (fb : Framebuffer) sprite ox oy, sprite.length ≤ 32 →
    ((fb.draw sprite ox oy).2 = true ↔
      ∃ py px, fb.pixel py px = true ∧ (fb.draw sprite ox oy).1.pixel py px = false) ∧
    ((fb.draw sprite ox oy).2 = true ↔ ∃ py px, SpriteFlips sprite ox oy py px ∧ fb.pixel py px = true)

/-- 43_display.md R158 (a): the same draw twice restores the framebuffer, and the second collides exactly when the first
turned a pixel on. (b): an all-zero sprite changes nothing and never collides. (c): origins count modulo 64 and 32.
(d): a pixel that two draws both flip ends as it began. -/
def Obligations.DrawLaws : Prop :=
  (∀ (fb : Framebuffer) sprite ox oy, sprite.length ≤ 32 →
    ((fb.draw sprite ox oy).1.draw sprite ox oy).1 = fb ∧
    (((fb.draw sprite ox oy).1.draw sprite ox oy).2 = true ↔
      ∃ py px, fb.pixel py px = false ∧ (fb.draw sprite ox oy).1.pixel py px = true)) ∧
  (∀ (fb : Framebuffer) n ox oy, fb.draw (List.replicate n 0) ox oy = (fb, false)) ∧
  (∀ (fb : Framebuffer) sprite ox oy, fb.draw sprite ox oy = fb.draw sprite (ox % 64) (oy % 32)) ∧
  ∀ (fb : Framebuffer) s1 x1 y1 s2 x2 y2 py px, s1.length ≤ 32 → s2.length ≤ 32 →
    SpriteFlips s1 x1 y1 py px → SpriteFlips s2 x2 y2 py px →
    ((fb.draw s1 x1 y1).1.draw s2 x2 y2).1.pixel py px = fb.pixel py px

/-- 60_exceptions.md R203, 10_state.md R31: the framebuffer read gives the 2048 pixels in row-major order and changes
nothing, in every status. -/
def Obligations.FramebufferReadIsRowMajor : Prop :=
  ∀ s, ∃ values, operate .readFramebuffer s = (.pixels values, s) ∧ values.length = 2048 ∧
    ∀ (y : Fin 32) (x : Fin 64), values[y.val * 64 + x.val]? = some (s.fb.pixel y x)

/-! ### The Input and the boundary -/

/-- 60_exceptions.md R199 to R201 in every status: press and release set and clear one bit and nothing else, is_pressed
reads it; a key over 15 fails with InvalidKey and changes nothing (for press and release the spec's decision D15, log
entry 12). -/
def Obligations.PressAndReleaseChangeOneKey : Prop :=
  (∀ s key, key ≤ 15 →
    (∃ t, operate (.press key) s = (.ok, t) ∧ t = { s with keys := t.keys } ∧
      ∀ k ≤ 15, t.isPressed k = if k = key then .ok true else s.isPressed k) ∧
    (∃ t, operate (.release key) s = (.ok, t) ∧ t = { s with keys := t.keys } ∧
      ∀ k ≤ 15, t.isPressed k = if k = key then .ok false else s.isPressed k)) ∧
  ∀ s key, 15 < key → operate (.press key) s = (.failed .invalidKey, s) ∧
    operate (.release key) s = (.failed .invalidKey, s) ∧ s.isPressed key = .error .invalidKey

/-- 70_reset_and_hazards.md R222: in Running, an image that fits is copied to 0x200 and changes nothing else; one that
does not fit is reported and nothing changes, the status included. That this holds in every Running state is the spec's
decision D18 (log entry 14). -/
def Obligations.ProgramLoadCopiesImage : Prop :=
  ∀ s image, s.status = .running →
    (0x200 + image.length ≤ 4096 → ∃ t, operate (.load image) s = (.ok, t) ∧
      t.readSlice 0x200 image.length = .ok image ∧ t.pc = s.pc ∧
      OnlyTouches { byte := fun q => 0x200 ≤ q ∧ q < 0x200 + image.length } s t) ∧
    (4096 < 0x200 + image.length → operate (.load image) s = (.failed .memoryBounds, s))

/-- 40_step_cycle.md R115 and R117, 60_exceptions.md R202, with the spec's decisions D9 and D18 (log entries 2 and 14):
in Running the host's step reports Ok or the kind of the fault and leaves the step's state; in Faulted a step and a
program load are not defined and change nothing, and reset alone leaves that status. -/
def Obligations.HostStepAndLoadByStatus : Prop :=
  (∀ s, s.status = .running → ∃ t, step s = .next t ∧
    (t.status = .running → operate .step s = (.ok, t)) ∧
    ∀ k, t.status = .faulted k → operate .step s = (.failed k, t)) ∧
  ∀ s k, s.status = .faulted k → operate .step s = (.notDefined, s) ∧
    (∀ image, operate (.load image) s = (.notDefined, s)) ∧
    ∀ op, (operate op s).2.status = .running ↔ op = .reset

/-- 70_reset_and_hazards.md R220, 10_state.md R40: reset, in every state, gives every piece of state its reset value,
with the parameters as they were. `fb`, `keys` and `I` are the spec's decisions D4, D5 and D6 (log entries 5, 6, 7). -/
def Obligations.ResetLeavesResetValues : Prop :=
  ∀ s, ∃ t, operate .reset s = (.ok, t) ∧ t.config = s.config ∧ (∀ r, t.reg r = 0) ∧ t.I = 0 ∧ t.pc = 0x200 ∧
    (∀ k, t.slot k = 0) ∧ t.sp = 0 ∧ t.DT = 0 ∧ t.ST = 0 ∧ (∀ y x, t.fb.pixel y x = false) ∧ t.keys = 0 ∧
    t.status = .running ∧
    (∀ k : Fin 80, t.readByte (s.config.fontBase.val + k.val) = .ok s.config.fontTable[k]) ∧
    ∀ a < 4096, (a < s.config.fontBase.val ∨ s.config.fontBase.val + 80 ≤ a) → t.readByte a = .ok 0

/-- 70_reset_and_hazards.md R221: right after reset, whatever the parameters, a step fetches 0x0000 and raises
DecodeError; that nothing else changes is the spec's decision D8 (log entry 9). -/
def Obligations.StepAfterResetFaults : Prop :=
  ∀ c, (State.resetWith c).fetch = .ok 0x0000 ∧
    step (State.resetWith c) = .next { State.resetWith c with status := .faulted .decodeError }

/-! ### Invariants -/

/-- Every step keeps memory in canonical form: only addresses 0 to 4095 hold bytes, each once (20_memory.md R50; the form
is the model's, log entry 21). -/
def Obligations.StepKeepsMemoryCanonical : Prop :=
  ∀ s t, s.MemoryCanonical → step s = .next t → t.MemoryCanonical

/-- Every step keeps `I` in 0 to 0xFFF, `pc` in 0 to 0x1002 and the stack entries in 0 to 0xFFE (10_state.md R25,
R28). -/
def Obligations.StepKeepsAddressesInRange : Prop :=
  ∀ s t, s.AddressesInRange → step s = .next t → t.AddressesInRange

/-- After reset, whatever the parameters, the invariants hold. -/
def Obligations.ResetMeetsInvariants : Prop :=
  ∀ c, (State.resetWith c).MemoryCanonical ∧ (State.resetWith c).AddressesInRange ∧ (State.resetWith c).TimersAtZero

/-- Every operation of the host keeps all three invariants, so they hold in every state of every session from reset
(10_state.md R25, R28, R29). -/
def Obligations.SessionsKeepInvariants : Prop :=
  (∀ op s, s.MemoryCanonical → s.AddressesInRange → s.TimersAtZero →
    (operate op s).2.MemoryCanonical ∧ (operate op s).2.AddressesInRange ∧ (operate op s).2.TimersAtZero) ∧
  ∀ c ops, (session ops (State.resetWith c)).MemoryCanonical ∧ (session ops (State.resetWith c)).AddressesInRange ∧
    (session ops (State.resetWith c)).TimersAtZero
end

