-- ==== Sys2Proof/Laws/Assembler.lean ====
section
/-! SUPPORT. What the assembler reads from a line written out: digits, operands, and the parts between commas
(spec/30_encoding.md R93). -/

namespace Sys2Proof.Machine

/-! ### Digits -/

theorem digitValue_digitChar : ∀ d < 16, digitValue (digitChar d) = some d := by decide

theorem registerOf_digitChar : ∀ r : Reg, registerOf (digitChar r.val) = some r := by decide

theorem digitChar_plain : ∀ d < 16, digitChar d ≠ ' ' ∧ digitChar d ≠ ',' ∧ digitChar d ≠ 'V' ∧ digitChar d ≠ 'x' := by
  decide

theorem digitsValue_append (base acc : Nat) (xs ys : List Char) :
    digitsValue base acc (xs ++ ys) = (digitsValue base acc xs).bind (fun v => digitsValue base v ys) := by
  induction xs generalizing acc with
  | nil => rfl
  | cons c rest ih =>
    simp only [List.cons_append, digitsValue]
    split
    · split
      · exact ih _
      · rfl
    · rfl

theorem digitsValue_digitsText {base : Nat} (h2 : 2 ≤ base) (h16 : base ≤ 16) {fuel v : Nat} (hv : v < fuel) :
    digitsValue base 0 (digitsText base fuel v) = some v := by
  induction fuel generalizing v with
  | zero => omega
  | succ fuel ih =>
    simp only [digitsText]
    split
    · simp [digitsValue, digitValue_digitChar v (by omega), *]
    · have hlt : v % base < base := Nat.mod_lt _ (by omega)
      have hdiv : v / base < fuel := by
        have := Nat.div_lt_self (n := v) (k := base) (by omega) (by omega)
        omega
      rw [digitsValue_append, ih hdiv]
      simp [digitsValue, digitValue_digitChar (v % base) (by omega), hlt, Nat.mul_comm (v / base), Nat.div_add_mod]

/-- Reading a number written in a base from 2 to 16 gives the number. -/
theorem digitsValue_numeral {base : Nat} (h2 : 2 ≤ base) (h16 : base ≤ 16) (v : Nat) :
    digitsValue base 0 (numeral base v) = some v :=
  digitsValue_digitsText h2 h16 (Nat.lt_succ_self v)

/-- A number is written with at least one character, and only with digits. -/
theorem numeral_spec {base : Nat} (h2 : 2 ≤ base) (h16 : base ≤ 16) (v : Nat) :
    numeral base v ≠ [] ∧ ∀ c ∈ numeral base v, ∃ d < base, c = digitChar d := by
  have main : ∀ fuel v, v < fuel → digitsText base fuel v ≠ [] ∧
      ∀ c ∈ digitsText base fuel v, ∃ d < base, c = digitChar d := by
    intro fuel
    induction fuel with
    | zero => intro v h; omega
    | succ fuel ih =>
      intro v h
      simp only [digitsText]
      split
      · exact ⟨by simp, by simp only [List.mem_singleton]; rintro c rfl; exact ⟨v, ‹_›, rfl⟩⟩
      · have hdiv : v / base < fuel := by
          have := Nat.div_lt_self (n := v) (k := base) (by omega) (by omega)
          omega
        refine ⟨by simp, ?_⟩
        simp only [List.mem_append, List.mem_singleton]
        rintro c (hc | rfl)
        · exact (ih _ hdiv).2 c hc
        · exact ⟨v % base, Nat.mod_lt _ (by omega), rfl⟩
  exact main _ _ (Nat.lt_succ_self v)

/-! ### Operands -/

/-- A written operand is read back. -/
@[simp] theorem parseOperand_text (o : AsmOperand) : parseOperand o.text = some o := by
  cases o with
  | reg r => simp [AsmOperand.text, parseOperand, registerOf_digitChar]
  | imm v =>
    obtain ⟨hne, -⟩ := numeral_spec (base := 16) (by omega) (by omega) v
    have hval := digitsValue_numeral (base := 16) (by omega) (by omega) v
    obtain ⟨d, rest, hd⟩ := List.exists_cons_of_ne_nil hne
    simp only [AsmOperand.text, hd] at hval ⊢
    simp [parseOperand, hval]

/-- A written operand has no space and no comma in it, and is not empty. -/
theorem AsmOperand.text_plain (o : AsmOperand) : o.text ≠ [] ∧ ∀ c ∈ o.text, c ≠ ' ' ∧ c ≠ ',' := by
  cases o with
  | reg r =>
    obtain ⟨h1, h2, -⟩ := digitChar_plain r.val r.isLt
    simp [AsmOperand.text, h1, h2]
  | imm v =>
    refine ⟨by simp [AsmOperand.text], ?_⟩
    intro c hc
    simp only [AsmOperand.text, List.mem_cons] at hc
    obtain rfl | rfl | hc := hc
    · decide
    · decide
    · obtain ⟨d, hd, rfl⟩ := (numeral_spec (base := 16) (by omega) (by omega) v).2 c hc
      exact ⟨(digitChar_plain d hd).1, (digitChar_plain d hd).2.1⟩

/-! ### Spaces and commas -/

/-- Dropping the spaces around a text that has none at its ends changes nothing. -/
theorem trimSpaces_eq {text : List Char} (hfirst : text.head? ≠ some ' ') (hlast : text.getLast? ≠ some ' ') :
    trimSpaces text = text := by
  have drop : ∀ t : List Char, t.head? ≠ some ' ' → t.dropWhile (· == ' ') = t := by
    intro t ht
    cases t with
    | nil => rfl
    | cons c rest =>
      have hc : (c == ' ') = false := by simpa using ht
      simp [List.dropWhile, hc]
  rw [trimSpaces, drop text hfirst, drop text.reverse (by simpa using hlast), List.reverse_reverse]

theorem trimSpaces_cons_space (text : List Char) : trimSpaces (' ' :: text) = trimSpaces text := rfl

/-- A part without a comma stands alone before the first comma. -/
theorem splitCommas_append_comma {part : List Char} (h : ∀ c ∈ part, c ≠ ',') (rest : List Char) :
    splitCommas (part ++ ',' :: rest) = part :: splitCommas rest := by
  induction part with
  | nil => simp [splitCommas]
  | cons c cs ih =>
    have hc : c ≠ ',' := h c (by simp)
    simp [splitCommas, hc, ih (fun d hd => h d (by simp [hd]))]

theorem splitCommas_plain {part : List Char} (h : ∀ c ∈ part, c ≠ ',') : splitCommas part = [part] := by
  induction part with
  | nil => rfl
  | cons c cs ih =>
    have hc : c ≠ ',' := h c (by simp)
    simp [splitCommas, hc, ih (fun d hd => h d (by simp [hd]))]

/-- There is always a first part. -/
theorem splitCommas_ne_nil (text : List Char) : splitCommas text ≠ [] := by
  cases text with
  | nil => simp [splitCommas]
  | cons c rest => simp only [splitCommas]; split <;> (try split) <;> simp

/-- The operands of a written line are read back. -/
theorem parseOperands_operandsText (o : AsmOperand) (os : List AsmOperand) :
    parseOperands (splitCommas (operandsText (o :: os))) = some (o :: os) := by
  have trimmed : ∀ o : AsmOperand, trimSpaces o.text = o.text := fun o =>
    trimSpaces_eq (fun h => (o.text_plain.2 _ (List.mem_of_mem_head? h)).1 rfl)
      (fun h => (o.text_plain.2 _ (List.mem_of_getLast? h)).1 rfl)
  have spaced : ∀ text, parseOperands (splitCommas (' ' :: text)) = parseOperands (splitCommas text) := by
    intro text
    obtain ⟨part, parts, h⟩ := List.exists_cons_of_ne_nil (splitCommas_ne_nil text)
    rw [splitCommas, h]
    rfl
  induction os generalizing o with
  | nil => simp [operandsText, splitCommas_plain (fun c hc => (o.text_plain.2 c hc).2), parseOperands, trimmed]
  | cons o2 os ih =>
    rw [operandsText, splitCommas_append_comma (fun c hc => (o.text_plain.2 c hc).2), parseOperands, spaced, ih,
      trimmed, parseOperand_text]
    simp

end Sys2Proof.Machine
end

