-- ==== Sys2Proof/Laws/Decode.lean ====
section
/-! SUPPORT. The masks of the opcode table as arithmetic, and the table scan as a chain of cases on numbers. -/

namespace Sys2Proof

/-- Masking with 0xF000 keeps the first nibble. -/
theorem and_F000 (w : Word) : (w &&& 0xF000#16).toNat = w.toNat / 4096 * 4096 := by
  have h : w &&& 0xF000#16 = (w >>> 12) <<< 12 := by
    ext i hi
    interval_cases i <;> simp
  rw [h]
  have := w.isLt
  simp only [BitVec.toNat_shiftLeft, BitVec.toNat_ushiftRight, Nat.shiftLeft_eq, Nat.shiftRight_eq_div_pow]
  omega

/-- Masking with 0xF0FF keeps the first nibble and the low byte. -/
theorem and_F0FF (w : Word) : (w &&& 0xF0FF#16).toNat = w.toNat / 4096 * 4096 + w.toNat % 256 := by
  have h : w &&& 0xF0FF#16 = (w &&& 0xF000#16) ||| (w &&& 0xFF#16) := by
    ext i hi
    interval_cases i <;> simp
  have low : (w &&& 0xFF#16).toNat = w.toNat % 256 := by
    rw [BitVec.toNat_and, show (0xFF#16).toNat = 2 ^ 8 - 1 from rfl, Nat.and_two_pow_sub_one_eq_mod]
  rw [h, BitVec.toNat_or, and_F000, low, show w.toNat / 4096 * 4096 = (w.toNat / 4096) <<< 12 by
    rw [Nat.shiftLeft_eq], ← Nat.shiftLeft_add_eq_or_of_lt (by omega)]

/-- Masking with 0xFFFF keeps the word. -/
theorem and_FFFF (w : Word) : w &&& 0xFFFF#16 = w := by
  ext i hi
  interval_cases i <;> simp

/-- A row of mask 0xF000 selects the words with its first nibble. -/
theorem TableRow.selects_F000 {m : String} {f : Word} {g : Word → Instr} (w : Word) :
    (TableRow.mk m 0xF000 f g).selects w = true ↔ w.toNat / 4096 * 4096 = f.toNat := by
  rw [← and_F000 w, BitVec.toNat_inj]
  exact beq_iff_eq

/-- A row of mask 0xF0FF selects the words with its first nibble and its low byte. -/
theorem TableRow.selects_F0FF {m : String} {f : Word} {g : Word → Instr} (w : Word) :
    (TableRow.mk m 0xF0FF f g).selects w = true ↔ w.toNat / 4096 * 4096 + w.toNat % 256 = f.toNat := by
  rw [← and_F0FF w, BitVec.toNat_inj]
  exact beq_iff_eq

/-- A row of mask 0xFFFF selects one word. -/
theorem TableRow.selects_FFFF {m : String} {f : Word} {g : Word → Instr} (w : Word) :
    (TableRow.mk m 0xFFFF f g).selects w = true ↔ w.toNat = f.toNat := by
  rw [BitVec.toNat_inj]
  refine Iff.trans beq_iff_eq ?_
  show w &&& 0xFFFF#16 = f ↔ w = f
  rw [and_FFFF w]

/-- The instruction of the first row that a word selects, among a list of rows. -/
def scan (rows : List TableRow) (w : Word) : Option Instr :=
  (rows.find? (fun r => r.selects w)).map (fun r => r.build w)

/-- One row of the scan. -/
theorem scan_cons {r : TableRow} {rows : List TableRow} {w : Word} {p : Prop} [Decidable p] {rest : Option Instr}
    (h : r.selects w = true ↔ p) (hr : scan rows w = rest) :
    scan (r :: rows) w = if p then some (r.build w) else rest := by
  have hp : p ↔ r.selects w = true := h.symm
  simp only [scan, List.find?_cons, hp]
  cases r.selects w with
  | true => simp
  | false => simpa [scan] using hr

/-- The scan of the table as a chain of cases on the word's number (30_encoding.md R85). -/
theorem decodeWord_chain (w : Word) : decodeWord w =
    if w.toNat = 0x00E0 then some .cls
    else if w.toNat = 0x00EE then some .ret
    else if w.toNat / 4096 = 1 then some (.jp (fieldNnn w))
    else if w.toNat / 4096 = 2 then some (.call (fieldNnn w))
    else if w.toNat / 4096 = 3 then some (.se (fieldX w) (fieldKk w))
    else if w.toNat / 4096 = 6 then some (.ldk (fieldX w) (fieldKk w))
    else if w.toNat / 4096 = 7 then some (.addk (fieldX w) (fieldKk w))
    else if w.toNat / 4096 = 8 then some (.mov (fieldX w) (fieldY w))
    else if w.toNat / 4096 = 10 then some (.ldi (fieldNnn w))
    else if w.toNat / 4096 = 13 then some (.drw (fieldX w) (fieldY w) (fieldN w))
    else if w.toNat / 4096 = 15 ∧ w.toNat % 256 = 0x29 then some (.ldf (fieldX w))
    else if w.toNat / 4096 = 15 ∧ w.toNat % 256 = 0x33 then some (.bcd (fieldX w))
    else if w.toNat / 4096 = 15 ∧ w.toNat % 256 = 0x55 then some (.stm (fieldX w))
    else if w.toNat / 4096 = 15 ∧ w.toNat % 256 = 0x65 then some (.ldm (fieldX w))
    else none := by
  have whole {m : String} {f : Word} {g : Word → Instr} (k : Nat) (hf : f.toNat = k) :
      (TableRow.mk m 0xFFFF f g).selects w = true ↔ w.toNat = k := by rw [TableRow.selects_FFFF, hf]
  have high {m : String} {f : Word} {g : Word → Instr} (k : Nat) (hf : f.toNat = k * 4096) :
      (TableRow.mk m 0xF000 f g).selects w = true ↔ w.toNat / 4096 = k := by
    rw [TableRow.selects_F000, hf]; omega
  have both {m : String} {f : Word} {g : Word → Instr} (l : Nat) (hl : l < 256) (hf : f.toNat = 15 * 4096 + l) :
      (TableRow.mk m 0xF0FF f g).selects w = true ↔ w.toNat / 4096 = 15 ∧ w.toNat % 256 = l := by
    rw [TableRow.selects_F0FF, hf]; omega
  show scan opcodeTable w = _
  exact scan_cons (whole _ rfl) (scan_cons (whole _ rfl) (scan_cons (high _ rfl) (scan_cons (high _ rfl)
    (scan_cons (high _ rfl) (scan_cons (high _ rfl) (scan_cons (high _ rfl) (scan_cons (high _ rfl)
    (scan_cons (high _ rfl) (scan_cons (high _ rfl) (scan_cons (both _ (by omega) rfl)
    (scan_cons (both _ (by omega) rfl) (scan_cons (both _ (by omega) rfl) (scan_cons (both _ (by omega) rfl)
    rfl)))))))))))))

/-- One case of a chain that answers an instruction. -/
theorem ite_some_eq_some {p : Prop} [Decidable p] {a i : Instr} {rest : Option Instr}
    (h : (if p then some a else rest) = some i) : (p ∧ a = i) ∨ rest = some i := by
  by_cases hp : p
  · rw [if_pos hp] at h; exact .inl ⟨hp, Option.some.inj h⟩
  · rw [if_neg hp] at h; exact .inr h

/-- One case of a chain that answers nothing. -/
theorem ite_some_eq_none {p : Prop} [Decidable p] {a : Instr} {rest : Option Instr} :
    (if p then some a else rest) = none ↔ ¬ p ∧ rest = none := by
  by_cases hp : p
  · rw [if_pos hp]; exact ⟨fun h => absurd h (by simp), fun h => absurd hp h.1⟩
  · rw [if_neg hp]; exact ⟨fun h => ⟨hp, h⟩, fun h => h.2⟩

/-- The words that decode, and to what: one case per instruction. -/
theorem decodeWord_some {w : Word} {i : Instr} (h : decodeWord w = some i) :
    (w.toNat = 0x00E0 ∧ i = .cls) ∨
    (w.toNat = 0x00EE ∧ i = .ret) ∨
    (w.toNat / 4096 = 1 ∧ i = .jp (fieldNnn w)) ∨
    (w.toNat / 4096 = 2 ∧ i = .call (fieldNnn w)) ∨
    (w.toNat / 4096 = 3 ∧ i = .se (fieldX w) (fieldKk w)) ∨
    (w.toNat / 4096 = 6 ∧ i = .ldk (fieldX w) (fieldKk w)) ∨
    (w.toNat / 4096 = 7 ∧ i = .addk (fieldX w) (fieldKk w)) ∨
    (w.toNat / 4096 = 8 ∧ i = .mov (fieldX w) (fieldY w)) ∨
    (w.toNat / 4096 = 10 ∧ i = .ldi (fieldNnn w)) ∨
    (w.toNat / 4096 = 13 ∧ i = .drw (fieldX w) (fieldY w) (fieldN w)) ∨
    ((w.toNat / 4096 = 15 ∧ w.toNat % 256 = 0x29) ∧ i = .ldf (fieldX w)) ∨
    ((w.toNat / 4096 = 15 ∧ w.toNat % 256 = 0x33) ∧ i = .bcd (fieldX w)) ∨
    ((w.toNat / 4096 = 15 ∧ w.toNat % 256 = 0x55) ∧ i = .stm (fieldX w)) ∨
    ((w.toNat / 4096 = 15 ∧ w.toNat % 256 = 0x65) ∧ i = .ldm (fieldX w)) := by
  rw [decodeWord_chain] at h
  rcases ite_some_eq_some h with h | h
  · exact .inl ⟨h.1, h.2.symm⟩
  rcases ite_some_eq_some h with h | h
  · exact .inr (.inl ⟨h.1, h.2.symm⟩)
  rcases ite_some_eq_some h with h | h
  · exact .inr (.inr (.inl ⟨h.1, h.2.symm⟩))
  rcases ite_some_eq_some h with h | h
  · exact .inr (.inr (.inr (.inl ⟨h.1, h.2.symm⟩)))
  rcases ite_some_eq_some h with h | h
  · exact .inr (.inr (.inr (.inr (.inl ⟨h.1, h.2.symm⟩))))
  rcases ite_some_eq_some h with h | h
  · exact .inr (.inr (.inr (.inr (.inr (.inl ⟨h.1, h.2.symm⟩)))))
  rcases ite_some_eq_some h with h | h
  · exact .inr (.inr (.inr (.inr (.inr (.inr (.inl ⟨h.1, h.2.symm⟩))))))
  rcases ite_some_eq_some h with h | h
  · exact .inr (.inr (.inr (.inr (.inr (.inr (.inr (.inl ⟨h.1, h.2.symm⟩)))))))
  rcases ite_some_eq_some h with h | h
  · exact .inr (.inr (.inr (.inr (.inr (.inr (.inr (.inr (.inl ⟨h.1, h.2.symm⟩))))))))
  rcases ite_some_eq_some h with h | h
  · exact .inr (.inr (.inr (.inr (.inr (.inr (.inr (.inr (.inr (.inl ⟨h.1, h.2.symm⟩)))))))))
  rcases ite_some_eq_some h with h | h
  · exact .inr (.inr (.inr (.inr (.inr (.inr (.inr (.inr (.inr (.inr (.inl ⟨h.1, h.2.symm⟩))))))))))
  rcases ite_some_eq_some h with h | h
  · exact .inr (.inr (.inr (.inr (.inr (.inr (.inr (.inr (.inr (.inr (.inr (.inl ⟨h.1, h.2.symm⟩)))))))))))
  rcases ite_some_eq_some h with h | h
  · exact .inr (.inr (.inr (.inr (.inr (.inr (.inr (.inr (.inr (.inr (.inr (.inr (.inl ⟨h.1, h.2.symm⟩))))))))))))
  rcases ite_some_eq_some h with h | h
  · exact .inr (.inr (.inr (.inr (.inr (.inr (.inr (.inr (.inr (.inr (.inr (.inr (.inr (⟨h.1, h.2.symm⟩)))))))))))))
  · exact absurd h (by simp)

/-! ### The fields as numbers -/

theorem fieldX_val (w : Word) : (fieldX w).val = w.toNat / 256 % 16 := by simp [fieldX, bits]
theorem fieldY_val (w : Word) : (fieldY w).val = w.toNat / 16 % 16 := by simp [fieldY, bits]
theorem fieldN_eq (w : Word) : fieldN w = w.toNat % 16 := by simp [fieldN, bits]
theorem fieldKk_toNat (w : Word) : (fieldKk w).toNat = w.toNat % 256 := by simp [fieldKk, bits]
theorem fieldNnn_toNat (w : Word) : (fieldNnn w).toNat = w.toNat % 4096 := by
  simp only [fieldNnn, bits, BitVec.toNat_ofNat]; omega

/-- The word of two bytes, as a number. -/
theorem wordOfBytes_toNat (high low : Byte) : (wordOfBytes high low).toNat = high.toNat * 256 + low.toNat := by
  have := high.isLt; have := low.isLt
  simp only [wordOfBytes, BitVec.toNat_ofNat]; omega

end Sys2Proof
end

