-- ==== Sys2Proof/Laws/State.lean ====
section
/-! SUPPORT. What each field of State is after each update (true by rfl), and the register and slot reads after a
write. -/

namespace Sys2Proof.Machine

/-! ### State.setReg -/

@[simp] theorem State.setReg_V (s : State) (r : Reg) (b : Byte) :
    (s.setReg r b).V = s.V.set r.val b := rfl
@[simp] theorem State.setReg_I (s : State) (r : Reg) (b : Byte) :
    (s.setReg r b).I = s.I := rfl
@[simp] theorem State.setReg_pc (s : State) (r : Reg) (b : Byte) :
    (s.setReg r b).pc = s.pc := rfl
@[simp] theorem State.setReg_stack (s : State) (r : Reg) (b : Byte) :
    (s.setReg r b).stack = s.stack := rfl
@[simp] theorem State.setReg_sp (s : State) (r : Reg) (b : Byte) :
    (s.setReg r b).sp = s.sp := rfl
@[simp] theorem State.setReg_DT (s : State) (r : Reg) (b : Byte) :
    (s.setReg r b).DT = s.DT := rfl
@[simp] theorem State.setReg_ST (s : State) (r : Reg) (b : Byte) :
    (s.setReg r b).ST = s.ST := rfl
@[simp] theorem State.setReg_mem (s : State) (r : Reg) (b : Byte) :
    (s.setReg r b).mem = s.mem := rfl
@[simp] theorem State.setReg_fb (s : State) (r : Reg) (b : Byte) :
    (s.setReg r b).fb = s.fb := rfl
@[simp] theorem State.setReg_keys (s : State) (r : Reg) (b : Byte) :
    (s.setReg r b).keys = s.keys := rfl
@[simp] theorem State.setReg_status (s : State) (r : Reg) (b : Byte) :
    (s.setReg r b).status = s.status := rfl
@[simp] theorem State.setReg_config (s : State) (r : Reg) (b : Byte) :
    (s.setReg r b).config = s.config := rfl

/-! ### State.setI -/

@[simp] theorem State.setI_V (s : State) (a : Word) :
    (s.setI a).V = s.V := rfl
@[simp] theorem State.setI_I (s : State) (a : Word) :
    (s.setI a).I = a := rfl
@[simp] theorem State.setI_pc (s : State) (a : Word) :
    (s.setI a).pc = s.pc := rfl
@[simp] theorem State.setI_stack (s : State) (a : Word) :
    (s.setI a).stack = s.stack := rfl
@[simp] theorem State.setI_sp (s : State) (a : Word) :
    (s.setI a).sp = s.sp := rfl
@[simp] theorem State.setI_DT (s : State) (a : Word) :
    (s.setI a).DT = s.DT := rfl
@[simp] theorem State.setI_ST (s : State) (a : Word) :
    (s.setI a).ST = s.ST := rfl
@[simp] theorem State.setI_mem (s : State) (a : Word) :
    (s.setI a).mem = s.mem := rfl
@[simp] theorem State.setI_fb (s : State) (a : Word) :
    (s.setI a).fb = s.fb := rfl
@[simp] theorem State.setI_keys (s : State) (a : Word) :
    (s.setI a).keys = s.keys := rfl
@[simp] theorem State.setI_status (s : State) (a : Word) :
    (s.setI a).status = s.status := rfl
@[simp] theorem State.setI_config (s : State) (a : Word) :
    (s.setI a).config = s.config := rfl

/-! ### State.setPc -/

@[simp] theorem State.setPc_V (s : State) (a : Word) :
    (s.setPc a).V = s.V := rfl
@[simp] theorem State.setPc_I (s : State) (a : Word) :
    (s.setPc a).I = s.I := rfl
@[simp] theorem State.setPc_pc (s : State) (a : Word) :
    (s.setPc a).pc = a := rfl
@[simp] theorem State.setPc_stack (s : State) (a : Word) :
    (s.setPc a).stack = s.stack := rfl
@[simp] theorem State.setPc_sp (s : State) (a : Word) :
    (s.setPc a).sp = s.sp := rfl
@[simp] theorem State.setPc_DT (s : State) (a : Word) :
    (s.setPc a).DT = s.DT := rfl
@[simp] theorem State.setPc_ST (s : State) (a : Word) :
    (s.setPc a).ST = s.ST := rfl
@[simp] theorem State.setPc_mem (s : State) (a : Word) :
    (s.setPc a).mem = s.mem := rfl
@[simp] theorem State.setPc_fb (s : State) (a : Word) :
    (s.setPc a).fb = s.fb := rfl
@[simp] theorem State.setPc_keys (s : State) (a : Word) :
    (s.setPc a).keys = s.keys := rfl
@[simp] theorem State.setPc_status (s : State) (a : Word) :
    (s.setPc a).status = s.status := rfl
@[simp] theorem State.setPc_config (s : State) (a : Word) :
    (s.setPc a).config = s.config := rfl

/-! ### State.advance -/

@[simp] theorem State.advance_V (s : State) :
    (s.advance).V = s.V := rfl
@[simp] theorem State.advance_I (s : State) :
    (s.advance).I = s.I := rfl
@[simp] theorem State.advance_pc (s : State) :
    (s.advance).pc = s.pc + 2 := rfl
@[simp] theorem State.advance_stack (s : State) :
    (s.advance).stack = s.stack := rfl
@[simp] theorem State.advance_sp (s : State) :
    (s.advance).sp = s.sp := rfl
@[simp] theorem State.advance_DT (s : State) :
    (s.advance).DT = s.DT := rfl
@[simp] theorem State.advance_ST (s : State) :
    (s.advance).ST = s.ST := rfl
@[simp] theorem State.advance_mem (s : State) :
    (s.advance).mem = s.mem := rfl
@[simp] theorem State.advance_fb (s : State) :
    (s.advance).fb = s.fb := rfl
@[simp] theorem State.advance_keys (s : State) :
    (s.advance).keys = s.keys := rfl
@[simp] theorem State.advance_status (s : State) :
    (s.advance).status = s.status := rfl
@[simp] theorem State.advance_config (s : State) :
    (s.advance).config = s.config := rfl

/-! ### State.skip -/

@[simp] theorem State.skip_V (s : State) :
    (s.skip).V = s.V := rfl
@[simp] theorem State.skip_I (s : State) :
    (s.skip).I = s.I := rfl
@[simp] theorem State.skip_pc (s : State) :
    (s.skip).pc = s.pc + 4 := rfl
@[simp] theorem State.skip_stack (s : State) :
    (s.skip).stack = s.stack := rfl
@[simp] theorem State.skip_sp (s : State) :
    (s.skip).sp = s.sp := rfl
@[simp] theorem State.skip_DT (s : State) :
    (s.skip).DT = s.DT := rfl
@[simp] theorem State.skip_ST (s : State) :
    (s.skip).ST = s.ST := rfl
@[simp] theorem State.skip_mem (s : State) :
    (s.skip).mem = s.mem := rfl
@[simp] theorem State.skip_fb (s : State) :
    (s.skip).fb = s.fb := rfl
@[simp] theorem State.skip_keys (s : State) :
    (s.skip).keys = s.keys := rfl
@[simp] theorem State.skip_status (s : State) :
    (s.skip).status = s.status := rfl
@[simp] theorem State.skip_config (s : State) :
    (s.skip).config = s.config := rfl

/-! ### State.takeFault -/

@[simp] theorem State.takeFault_V (s : State) (kind : FaultKind) :
    (s.takeFault kind).V = s.V := rfl
@[simp] theorem State.takeFault_I (s : State) (kind : FaultKind) :
    (s.takeFault kind).I = s.I := rfl
@[simp] theorem State.takeFault_pc (s : State) (kind : FaultKind) :
    (s.takeFault kind).pc = s.pc := rfl
@[simp] theorem State.takeFault_stack (s : State) (kind : FaultKind) :
    (s.takeFault kind).stack = s.stack := rfl
@[simp] theorem State.takeFault_sp (s : State) (kind : FaultKind) :
    (s.takeFault kind).sp = s.sp := rfl
@[simp] theorem State.takeFault_DT (s : State) (kind : FaultKind) :
    (s.takeFault kind).DT = s.DT := rfl
@[simp] theorem State.takeFault_ST (s : State) (kind : FaultKind) :
    (s.takeFault kind).ST = s.ST := rfl
@[simp] theorem State.takeFault_mem (s : State) (kind : FaultKind) :
    (s.takeFault kind).mem = s.mem := rfl
@[simp] theorem State.takeFault_fb (s : State) (kind : FaultKind) :
    (s.takeFault kind).fb = s.fb := rfl
@[simp] theorem State.takeFault_keys (s : State) (kind : FaultKind) :
    (s.takeFault kind).keys = s.keys := rfl
@[simp] theorem State.takeFault_status (s : State) (kind : FaultKind) :
    (s.takeFault kind).status = .faulted kind := rfl
@[simp] theorem State.takeFault_config (s : State) (kind : FaultKind) :
    (s.takeFault kind).config = s.config := rfl

/-! ### State.tick -/

@[simp] theorem State.tick_V (s : State) :
    (s.tick).V = s.V := rfl
@[simp] theorem State.tick_I (s : State) :
    (s.tick).I = s.I := rfl
@[simp] theorem State.tick_pc (s : State) :
    (s.tick).pc = s.pc := rfl
@[simp] theorem State.tick_stack (s : State) :
    (s.tick).stack = s.stack := rfl
@[simp] theorem State.tick_sp (s : State) :
    (s.tick).sp = s.sp := rfl
@[simp] theorem State.tick_DT (s : State) :
    (s.tick).DT = tickTimer s.DT := rfl
@[simp] theorem State.tick_ST (s : State) :
    (s.tick).ST = tickTimer s.ST := rfl
@[simp] theorem State.tick_mem (s : State) :
    (s.tick).mem = s.mem := rfl
@[simp] theorem State.tick_fb (s : State) :
    (s.tick).fb = s.fb := rfl
@[simp] theorem State.tick_keys (s : State) :
    (s.tick).keys = s.keys := rfl
@[simp] theorem State.tick_status (s : State) :
    (s.tick).status = s.status := rfl
@[simp] theorem State.tick_config (s : State) :
    (s.tick).config = s.config := rfl

/-! ### State.setCollision -/

@[simp] theorem State.setCollision_V (s : State) (c : Bool) :
    (s.setCollision c).V = s.V.set flagReg.val (flagByte c) := rfl
@[simp] theorem State.setCollision_I (s : State) (c : Bool) :
    (s.setCollision c).I = s.I := rfl
@[simp] theorem State.setCollision_pc (s : State) (c : Bool) :
    (s.setCollision c).pc = s.pc := rfl
@[simp] theorem State.setCollision_stack (s : State) (c : Bool) :
    (s.setCollision c).stack = s.stack := rfl
@[simp] theorem State.setCollision_sp (s : State) (c : Bool) :
    (s.setCollision c).sp = s.sp := rfl
@[simp] theorem State.setCollision_DT (s : State) (c : Bool) :
    (s.setCollision c).DT = s.DT := rfl
@[simp] theorem State.setCollision_ST (s : State) (c : Bool) :
    (s.setCollision c).ST = s.ST := rfl
@[simp] theorem State.setCollision_mem (s : State) (c : Bool) :
    (s.setCollision c).mem = s.mem := rfl
@[simp] theorem State.setCollision_fb (s : State) (c : Bool) :
    (s.setCollision c).fb = s.fb := rfl
@[simp] theorem State.setCollision_keys (s : State) (c : Bool) :
    (s.setCollision c).keys = s.keys := rfl
@[simp] theorem State.setCollision_status (s : State) (c : Bool) :
    (s.setCollision c).status = s.status := rfl
@[simp] theorem State.setCollision_config (s : State) (c : Bool) :
    (s.setCollision c).config = s.config := rfl

/-! ### Reads of registers, slots and bytes after an update -/

@[simp] theorem State.reg_setReg_same (s : State) (r : Reg) (b : Byte) : (s.setReg r b).reg r = b := by
  simp [State.reg]

theorem State.reg_setReg_ne (s : State) (r q : Reg) (b : Byte) (h : q ≠ r) : (s.setReg r b).reg q = s.reg q := by
  have : r.val ≠ q.val := fun e => h (Fin.ext e.symm)
  simp [State.reg, this]

theorem State.reg_congr {s t : State} (h : t.V = s.V) (r : Reg) : t.reg r = s.reg r := by
  simp [State.reg, h]

theorem State.slot_congr {s t : State} (h : t.stack = s.stack) (k : Fin 16) : t.slot k = s.slot k := by
  simp [State.slot, h]

theorem State.readByte_congr {s t : State} (hm : t.mem = s.mem) (hc : t.config = s.config) (a : Nat) :
    t.readByte a = s.readByte a := by
  simp [State.readByte, hm, hc]

/-- The timer of one tick, as a number: 0 stays 0. -/
theorem tickTimer_toNat (t : Byte) : (tickTimer t).toNat = t.toNat - 1 := by
  unfold tickTimer
  have := t.isLt
  split
  · rw [BitVec.toNat_sub, show (1 : Byte).toNat = 1 from rfl]; omega
  · omega

end Sys2Proof.Machine
end

