-- ==== Sys2Proof/Laws/Memory.lean ====
section
/-! SUPPORT. The memory operations: what a byte reads after a write, and that every operation keeps the canonical
form. -/

namespace Sys2Proof.Machine

/-! ### One byte -/

theorem Memory.byteAt_insertCell_same (c : Config) (a : Nat) (b : Byte) (m : Memory) :
    Memory.byteAt c (Memory.insertCell a b m) a = b := by
  induction m with
  | nil => simp [Memory.insertCell, Memory.byteAt]
  | cons cell rest ih =>
    unfold Memory.insertCell
    split_ifs with h1 h2
    · simp [Memory.byteAt]
    · simp [Memory.byteAt]
    · simp [Memory.byteAt, ih, Ne.symm h2]

theorem Memory.byteAt_insertCell_ne (c : Config) (a q : Nat) (b : Byte) (m : Memory) (h : q ≠ a) :
    Memory.byteAt c (Memory.insertCell a b m) q = Memory.byteAt c m q := by
  induction m with
  | nil => simp [Memory.insertCell, Memory.byteAt, Ne.symm h]
  | cons cell rest ih =>
    unfold Memory.insertCell
    split_ifs with h1 h2
    · simp [Memory.byteAt, Ne.symm h]
    · subst h2; simp [Memory.byteAt, Ne.symm h]
    · simp [Memory.byteAt, ih]

theorem Memory.byteAt_filter_same (c : Config) (a : Nat) (m : Memory) :
    Memory.byteAt c (m.filter (fun cell => cell.1 ≠ a)) a = resetByte c a := by
  induction m with
  | nil => rfl
  | cons cell rest ih =>
    rw [List.filter_cons]
    split_ifs with h
    · have h' : cell.1 ≠ a := by simpa using h
      simpa [Memory.byteAt, h'] using ih
    · exact ih

theorem Memory.byteAt_filter_ne (c : Config) (a q : Nat) (m : Memory) (h : q ≠ a) :
    Memory.byteAt c (m.filter (fun cell => cell.1 ≠ a)) q = Memory.byteAt c m q := by
  induction m with
  | nil => rfl
  | cons cell rest ih =>
    rw [List.filter_cons]
    split_ifs with hc
    · simp only [Memory.byteAt, ih]
    · have h' : cell.1 = a := by simpa using hc
      have : cell.1 ≠ q := fun e => h (e.symm.trans h')
      simpa [Memory.byteAt, this] using ih

/-- Everything a byte write does to reads: the address written reads the byte, every other address reads as before. -/
theorem Memory.byteAt_put (c : Config) (a q : Nat) (b : Byte) (m : Memory) :
    Memory.byteAt c (Memory.put c a b m) q = if q = a then b else Memory.byteAt c m q := by
  unfold Memory.put
  by_cases hq : q = a
  · subst hq
    rw [if_pos rfl]
    by_cases hb : b = resetByte c q
    · rw [if_pos hb, Memory.byteAt_filter_same, hb]
    · rw [if_neg hb]; exact Memory.byteAt_insertCell_same c q b m
  · rw [if_neg hq]
    by_cases hb : b = resetByte c a
    · rw [if_pos hb]; exact Memory.byteAt_filter_ne c a q m hq
    · rw [if_neg hb]; exact Memory.byteAt_insertCell_ne c a q b m hq

/-! ### Runs of bytes -/

@[simp] theorem Memory.readBytes_length (c : Config) (m : Memory) (a n : Nat) :
    (Memory.readBytes c m a n).length = n := by
  induction n generalizing a with
  | zero => rfl
  | succ n ih => simp [Memory.readBytes, ih]

theorem Memory.readBytes_getElem (c : Config) (m : Memory) (a n i : Nat)
    (h : i < (Memory.readBytes c m a n).length) :
    (Memory.readBytes c m a n)[i] = Memory.byteAt c m (a + i) := by
  induction n generalizing a i with
  | zero => simp [Memory.readBytes] at h
  | succ n ih =>
    cases i with
    | zero => simp [Memory.readBytes]
    | succ i =>
      have hi : i < (Memory.readBytes c m (a + 1) n).length := by simpa [Memory.readBytes] using h
      simp only [Memory.readBytes, List.getElem_cons_succ, ih (a + 1) i hi]
      congr 1; omega

/-- Everything a run of byte writes does to reads: inside the run the byte written, outside it as before. -/
theorem Memory.byteAt_writeBytes (c : Config) (m : Memory) (a q : Nat) (bytes : List Byte) :
    Memory.byteAt c (Memory.writeBytes c m a bytes) q =
      if h : a ≤ q ∧ q - a < bytes.length then bytes[q - a]'h.2 else Memory.byteAt c m q := by
  induction bytes generalizing m a with
  | nil => simp [Memory.writeBytes]
  | cons b rest ih =>
    simp only [Memory.writeBytes, ih, Memory.byteAt_put]
    by_cases hq : q = a
    · subst hq
      rw [dif_neg (by omega), if_pos rfl, dif_pos (by simp)]
      simp
    · rw [if_neg hq]
      by_cases hin : a + 1 ≤ q ∧ q - (a + 1) < rest.length
      · have h2 : a ≤ q ∧ q - a < (b :: rest).length := by simp only [List.length_cons]; omega
        rw [dif_pos hin, dif_pos h2]
        have e : q - a = (q - (a + 1)) + 1 := by omega
        simp only [e, List.getElem_cons_succ]
      · rw [dif_neg hin, dif_neg (by simp only [List.length_cons]; omega)]

/-! ### The canonical form -/

theorem Memory.wf_nil (c : Config) : Memory.wf c [] := by simp [Memory.wf]

theorem Memory.mem_insertCell {a : Nat} {b : Byte} {m : Memory} {p : Host.Cell}
    (h : p ∈ Memory.insertCell a b m) : p = (a, b) ∨ p ∈ m := by
  induction m with
  | nil => left; simpa [Memory.insertCell] using h
  | cons cell rest ih =>
    unfold Memory.insertCell at h
    split_ifs at h with h1 h2
    · simpa using h
    · rcases List.mem_cons.1 h with h | h
      · exact .inl h
      · exact .inr (List.mem_cons_of_mem _ h)
    · rcases List.mem_cons.1 h with h | h
      · exact .inr (h ▸ List.mem_cons_self)
      · exact (ih h).imp id (List.mem_cons_of_mem _)

theorem Memory.insertCell_sorted {a : Nat} {b : Byte} {m : Memory}
    (h : m.Pairwise (fun p q => p.1 < q.1)) : (Memory.insertCell a b m).Pairwise (fun p q => p.1 < q.1) := by
  induction m with
  | nil => simp [Memory.insertCell]
  | cons cell rest ih =>
    obtain ⟨hc, hr⟩ := List.pairwise_cons.1 h
    unfold Memory.insertCell
    split_ifs with h1 h2
    · refine List.pairwise_cons.2 ⟨fun p hp => ?_, h⟩
      rcases List.mem_cons.1 hp with rfl | hp
      · exact h1
      · exact h1.trans (hc p hp)
    · exact List.pairwise_cons.2 ⟨fun p hp => h2 ▸ hc p hp, hr⟩
    · refine List.pairwise_cons.2 ⟨fun p hp => ?_, ih hr⟩
      rcases Memory.mem_insertCell hp with rfl | hp
      · show cell.1 < a; omega
      · exact hc p hp

theorem Memory.put_wf {c : Config} {a : Nat} {b : Byte} {m : Memory} (ha : a < memSize) (h : Memory.wf c m) :
    Memory.wf c (Memory.put c a b m) := by
  unfold Memory.put
  split_ifs with hb
  · exact ⟨h.1.filter _, fun p hp => h.2 p (List.mem_filter.1 hp).1⟩
  · refine ⟨Memory.insertCell_sorted h.1, fun p hp => ?_⟩
    rcases Memory.mem_insertCell hp with rfl | hp
    · exact ⟨ha, hb⟩
    · exact h.2 p hp

theorem Memory.writeBytes_wf {c : Config} {a : Nat} {bytes : List Byte} {m : Memory}
    (ha : a + bytes.length ≤ memSize) (h : Memory.wf c m) : Memory.wf c (Memory.writeBytes c m a bytes) := by
  induction bytes generalizing m a with
  | nil => exact h
  | cons b rest ih =>
    simp only [List.length_cons] at ha
    exact ih (by omega) (Memory.put_wf (by omega) h)

/-! ### The controller's operations: what a state is after a write -/

/-- A multi-byte write that succeeds changes memory alone, and only inside its range. -/
theorem State.memWrite_ok {s t : State} {a : Nat} {bytes : List Byte} (h : s.memWrite a bytes = .ok t) :
    a + bytes.length ≤ memSize ∧ t = { s with mem := Memory.writeBytes s.config s.mem a bytes } := by
  unfold State.memWrite at h
  split_ifs at h with hb
  exact ⟨hb, by simpa using h.symm⟩

/-- A multi-byte write fails exactly when its range is not inside memory. -/
theorem State.memWrite_error {s : State} {a : Nat} {bytes : List Byte} (h : ¬ a + bytes.length ≤ memSize) :
    s.memWrite a bytes = .error .memoryBounds := by
  unfold State.memWrite; exact if_neg h

/-- What every byte read answers after a multi-byte write. -/
theorem State.readByte_memWrite {s t : State} {a : Nat} {bytes : List Byte} (h : s.memWrite a bytes = .ok t) (q : Nat) :
    t.readByte q = if hq : a ≤ q ∧ q - a < bytes.length then .ok (bytes[q - a]'hq.2) else s.readByte q := by
  obtain ⟨hb, rfl⟩ := State.memWrite_ok h
  simp only [State.readByte, Memory.byteAt_writeBytes]
  by_cases hq : a ≤ q ∧ q - a < bytes.length
  · rw [dif_pos hq, dif_pos hq, if_pos (by omega)]
  · rw [dif_neg hq, dif_neg hq]

theorem State.readSlice_ok {s : State} {a n : Nat} {bytes : List Byte} (h : s.readSlice a n = .ok bytes) :
    a + n ≤ memSize ∧ bytes = Memory.readBytes s.config s.mem a n := by
  unfold State.readSlice at h
  split_ifs at h with hb
  exact ⟨hb, by simpa using h.symm⟩

/-- The state that withFetchWord gives keeps the canonical form. -/
theorem State.withFetchWord_canonical (s : State) (nbits w : Nat) (h : s.MemoryCanonical) :
    (s.withFetchWord nbits w).MemoryCanonical := by
  unfold State.withFetchWord
  simp only
  split
  · rename_i t ht
    obtain ⟨hb, rfl⟩ := State.memWrite_ok ht
    exact Memory.writeBytes_wf hb h
  · exact h

end Sys2Proof.Machine
end

