-- ==== Sys2Proof/Laws/Ops.lean ====
section
/-! SUPPORT. One lemma per shared operation: the call stack, the register lists, fault entry and the end of a step. -/

namespace Sys2Proof.Machine

/-! ### The call stack -/

theorem State.push_of_lt {s : State} (a : Word) (h : s.sp.val < 16) :
    s.push a = .ok { s with stack := s.stack.set s.sp.val a h, sp := ⟨s.sp.val + 1, Nat.succ_lt_succ h⟩ } := by
  unfold State.push; exact dif_pos h

theorem State.push_full {s : State} (a : Word) (h : s.sp.val = 16) : s.push a = .error .stackOverflow := by
  unfold State.push; exact dif_neg (by unfold stackDepth; omega)

theorem State.pop_empty {s : State} (h : s.sp.val = 0) : s.pop = .error .stackUnderflow := by
  unfold State.pop; exact dif_pos h

theorem State.pop_of_pos {s : State} (h : 0 < s.sp.val) :
    s.pop = .ok (s.slot ⟨s.sp.val - 1, by have := s.sp.isLt; omega⟩,
      { s with sp := ⟨s.sp.val - 1, by have := s.sp.isLt; omega⟩ }) := by
  unfold State.pop; exact dif_neg (by omega)

/-! ### Register lists -/

@[simp] theorem State.regsUpTo_length (s : State) (x : Reg) : (s.regsUpTo x).length = x.val + 1 := by
  simp [State.regsUpTo]

theorem State.regsUpTo_getElem (s : State) (x : Reg) (k : Nat) (h : k < (s.regsUpTo x).length) :
    (s.regsUpTo x)[k] = s.reg ⟨k, by rw [State.regsUpTo_length] at h; omega⟩ := by
  simp [State.regsUpTo, State.reg]

/-- Everything LDM's writes do to a register. -/
theorem State.reg_setRegsFrom (s : State) (k : Nat) (bytes : List Byte) (r : Reg) :
    (s.setRegsFrom k bytes).reg r =
      if h : k ≤ r.val ∧ r.val - k < bytes.length then bytes[r.val - k]'h.2 else s.reg r := by
  induction bytes generalizing s k with
  | nil => simp [State.setRegsFrom]
  | cons b rest ih =>
    simp only [State.setRegsFrom, ih]
    by_cases hin : k + 1 ≤ r.val ∧ r.val - (k + 1) < rest.length
    · rw [dif_pos hin, dif_pos ⟨by omega, by simp only [List.length_cons]; omega⟩]
      have e : r.val - k = (r.val - (k + 1)) + 1 := by omega
      simp only [e, List.getElem_cons_succ]
    · rw [dif_neg hin]
      have one : ((if h : k < 16 then s.setReg ⟨k, h⟩ b else s).reg r) = if r.val = k then b else s.reg r := by
        by_cases hk : r.val = k
        · subst hk
          rw [dif_pos r.isLt, if_pos rfl]
          exact State.reg_setReg_same s r b
        · rw [if_neg hk]
          split_ifs with h
          · exact State.reg_setReg_ne s ⟨k, h⟩ r b (fun e => hk (congrArg Fin.val e))
          · rfl
      rw [one]
      by_cases hk : r.val = k
      · rw [if_pos hk, dif_pos ⟨by omega, by simp only [List.length_cons]; omega⟩]
        simp [hk]
      · rw [if_neg hk, dif_neg (by simp only [List.length_cons]; omega)]

/-- LDM's writes change registers alone. -/
theorem State.setRegsFrom_eq (s : State) (k : Nat) (bytes : List Byte) :
    s.setRegsFrom k bytes = { s with V := (s.setRegsFrom k bytes).V } := by
  induction bytes generalizing s k with
  | nil => rfl
  | cons b rest ih =>
    simp only [State.setRegsFrom]
    split_ifs with h
    · rw [ih]; rfl
    · rw [ih]

/-! ### Fault entry and the end of a step -/

/-- A handler ends in its own state or in the fault entered from where it began. -/
theorem State.settle_cases {s t : State} {r : Except FaultKind State} (h : s.settle r = .next t) :
    r = .ok t ∨ ∃ k, r = .error k ∧ t = s.takeFault k := by
  cases r with
  | ok u => left; simpa [State.settle] using h
  | error k => right; exact ⟨k, rfl, by simpa [State.settle] using h.symm⟩

theorem State.settle_next (s : State) (r : Except FaultKind State) : ∃ t, s.settle r = .next t := by
  cases r with
  | ok u => exact ⟨u, rfl⟩
  | error k => exact ⟨_, rfl⟩

theorem State.finishStep_running {t : State} (h : t.status = .running) : t.finishStep = t.tick := by
  simp [State.finishStep, h]

theorem State.finishStep_faulted {t : State} {k : FaultKind} (h : t.status = .faulted k) : t.finishStep = t := by
  simp [State.finishStep, h]

@[simp] theorem State.finishStep_status (t : State) : t.finishStep.status = t.status := by
  unfold State.finishStep; split <;> rfl

/-- The end of a step changes at most the timers. -/
theorem State.finishStep_eq (t : State) : t.finishStep = { t with DT := t.finishStep.DT, ST := t.finishStep.ST } := by
  unfold State.finishStep; split <;> rfl

/-- Everything that can happen in a step from a Running state (40_step_cycle.md R115). -/
theorem step_cases {s t : State} (hs : s.status = .running) (h : step s = .next t) :
    (∃ k, s.fetch = .error k ∧ t = s.takeFault k) ∨
    (∃ w, s.fetch = .ok w ∧ decodeWord w = none ∧ t = s.takeFault .decodeError) ∨
    (∃ w i u, s.fetch = .ok w ∧ decodeWord w = some i ∧ exec i s = .next u ∧ t = u.finishStep) := by
  unfold step at h
  rw [hs] at h
  simp only at h
  cases hf : s.fetch with
  | error k => rw [hf] at h; exact .inl ⟨k, rfl, by simpa using h.symm⟩
  | ok w =>
    rw [hf] at h
    right
    simp only at h
    cases hd : decodeWord w with
    | none => rw [hd] at h; exact .inl ⟨w, rfl, hd, by simpa using h.symm⟩
    | some i =>
      rw [hd] at h
      right
      cases hx : exec i s with
      | next u => simp only [hx, endOfStep] at h; exact ⟨w, i, u, rfl, hd, hx, by simpa using h.symm⟩
      | fault r => simp [hx, endOfStep] at h
      | refused r => simp [hx, endOfStep] at h

/-- A successful fetch reads two valid addresses. -/
theorem State.fetch_ok {s : State} {w : Word} (h : s.fetch = .ok w) :
    s.pc.toNat + 2 ≤ memSize ∧
      w = wordOfBytes (Memory.byteAt s.config s.mem s.pc.toNat) (Memory.byteAt s.config s.mem (s.pc.toNat + 1)) := by
  unfold State.fetch State.readWord at h
  split_ifs at h with hb
  exact ⟨hb, by simpa using h.symm⟩

end Sys2Proof.Machine
end

