-- ==== Sys2Proof/Laws/Display.lean ====
section
/-! SUPPORT. The Display's drawing, pixel by pixel: what one bit, one row and a run of rows do. -/

namespace Sys2Proof.Machine

/-! ### Pixels -/

@[simp] theorem Framebuffer.pixel_allOff (y : Fin 32) (x : Fin 64) : Framebuffer.allOff.pixel y x = false := by
  simp [Framebuffer.pixel, Framebuffer.allOff]

/-- Everything a pixel write does to pixels. -/
theorem Framebuffer.pixel_setPixel (fb : Framebuffer) (py y : Fin 32) (px x : Fin 64) (v : Bool) :
    (fb.setPixel py px v).pixel y x = if y = py ∧ x = px then v else fb.pixel y x := by
  unfold Framebuffer.pixel Framebuffer.setPixel
  by_cases hy : y = py
  · subst hy
    by_cases hx : x = px
    · subst hx; simp
    · have : px.val ≠ x.val := fun e => hx (Fin.ext e.symm)
      simp [hx, this]
  · have : py.val ≠ y.val := fun e => hy (Fin.ext e.symm)
    simp [hy, this]

/-- Two framebuffers with the same pixels are the same. -/
theorem Framebuffer.ext_pixel {f g : Framebuffer} (h : ∀ y x, f.pixel y x = g.pixel y x) : f = g := by
  apply Vector.ext
  intro y hy
  apply Vector.ext
  intro x hx
  exact h ⟨y, hy⟩ ⟨x, hx⟩

/-! ### One bit -/

theorem drawBit_pixel (row : Byte) (py : Fin 32) (ox b : Nat) (d : Drawing) (y : Fin 32) (x : Fin 64) :
    (drawBit row py ox b d).1.pixel y x =
      (d.1.pixel y x ^^ (decide (y = py ∧ x = Fin.ofNat 64 (ox + b)) && row.getLsbD (7 - b))) := by
  simp only [drawBit, Framebuffer.pixel_setPixel]
  by_cases h : y = py ∧ x = Fin.ofNat 64 (ox + b)
  · rw [if_pos h, h.1, h.2]; simp
  · rw [if_neg h, decide_eq_false h, Bool.false_and, Bool.xor_false]

theorem drawBit_collision (row : Byte) (py : Fin 32) (ox b : Nat) (d : Drawing) :
    (drawBit row py ox b d).2 = (d.2 || (d.1.pixel py (Fin.ofNat 64 (ox + b)) && row.getLsbD (7 - b))) := rfl

/-! ### A run of bits of one row -/

/-- Offsets 0 to 7 from one origin fall on different columns (43_display.md R155). -/
theorem column_injective {ox a b : Nat} (ha : a < 8) (hb : b < 8)
    (h : Fin.ofNat 64 (ox + a) = Fin.ofNat 64 (ox + b)) : a = b := by
  have := congrArg Fin.val h
  simp only [Fin.val_ofNat] at this
  omega

/-- Row numbers under 32 from one origin fall on different rows (43_display.md R155). -/
theorem row_injective {oy a b : Nat} (ha : a < 32) (hb : b < 32)
    (h : Fin.ofNat 32 (oy + a) = Fin.ofNat 32 (oy + b)) : a = b := by
  have := congrArg Fin.val h
  simp only [Fin.val_ofNat] at this
  omega

/-- Everything that drawing some offsets of a row does: which pixels change, and when a collision is found. -/
theorem drawBits_spec (row : Byte) (py : Fin 32) (ox : Nat) (bs : List Nat) (d : Drawing)
    (hb : ∀ b ∈ bs, b < 8) (nd : bs.Nodup) :
    (∀ y x, (bs.foldl (fun d b => drawBit row py ox b d) d).1.pixel y x ≠ d.1.pixel y x ↔
      y = py ∧ ∃ b ∈ bs, x = Fin.ofNat 64 (ox + b) ∧ row.getLsbD (7 - b) = true) ∧
    ((bs.foldl (fun d b => drawBit row py ox b d) d).2 = true ↔
      d.2 = true ∨ ∃ b ∈ bs, row.getLsbD (7 - b) = true ∧ d.1.pixel py (Fin.ofNat 64 (ox + b)) = true) := by
  induction bs generalizing d with
  | nil => simp
  | cons b bs ih =>
    obtain ⟨hnot, nd'⟩ := List.nodup_cons.1 nd
    have hb0 := hb b List.mem_cons_self
    have hbs : ∀ c ∈ bs, c < 8 := fun c hc => hb c (List.mem_cons_of_mem _ hc)
    obtain ⟨ihp, ihc⟩ := ih (drawBit row py ox b d) hbs nd'
    have far : ∀ c ∈ bs, Fin.ofNat 64 (ox + c) ≠ Fin.ofNat 64 (ox + b) := fun c hc e =>
      hnot (column_injective (hbs c hc) hb0 e ▸ hc)
    refine ⟨fun y x => ?_, ?_⟩
    · have ihp := ihp y x
      rw [drawBit_pixel] at ihp
      rw [List.foldl_cons]
      simp only [List.exists_mem_cons_iff]
      generalize (List.foldl (fun d b => drawBit row py ox b d) (drawBit row py ox b d) bs).1.pixel y x = new at ihp ⊢
      by_cases hx : y = py ∧ x = Fin.ofNat 64 (ox + b)
      · obtain ⟨rfl, rfl⟩ := hx
        have none : ¬ ∃ c ∈ bs, Fin.ofNat 64 (ox + b) = Fin.ofNat 64 (ox + c) ∧ row.getLsbD (7 - c) = true :=
          fun ⟨c, hc, e, _⟩ => far c hc e.symm
        simp only [none, and_false, iff_false, not_not] at ihp
        rw [ihp]
        simp only [none, or_false, true_and, decide_true, Bool.true_and]
        cases row.getLsbD (7 - b) <;> simp
      · simp only [hx, decide_false, Bool.false_and, Bool.xor_false] at ihp
        rw [ihp]
        constructor
        · rintro ⟨e, h⟩; exact ⟨e, .inr h⟩
        · rintro ⟨e, h | h⟩
          · exact absurd ⟨e, h.1⟩ hx
          · exact ⟨e, h⟩
    · rw [List.foldl_cons, ihc, drawBit_collision]
      simp only [List.exists_mem_cons_iff, Bool.or_eq_true, Bool.and_eq_true, or_assoc]
      have same : (∃ c ∈ bs, row.getLsbD (7 - c) = true ∧
            (drawBit row py ox b d).1.pixel py (Fin.ofNat 64 (ox + c)) = true) ↔
          ∃ c ∈ bs, row.getLsbD (7 - c) = true ∧ d.1.pixel py (Fin.ofNat 64 (ox + c)) = true := by
        refine exists_congr fun c => and_congr_right fun hc => and_congr_right fun _ => ?_
        rw [drawBit_pixel, decide_eq_false (fun e => far c hc e.2), Bool.false_and, Bool.xor_false]
      rw [same]
      exact or_congr_right (or_congr_left And.comm)

/-- Everything one sprite row does. -/
theorem drawRow_spec (row : Byte) (py : Fin 32) (ox : Nat) (d : Drawing) :
    (∀ y x, (drawRow row py ox d).1.pixel y x ≠ d.1.pixel y x ↔
      y = py ∧ ∃ b, b < 8 ∧ x = Fin.ofNat 64 (ox + b) ∧ row.getLsbD (7 - b) = true) ∧
    ((drawRow row py ox d).2 = true ↔
      d.2 = true ∨ ∃ b, b < 8 ∧ row.getLsbD (7 - b) = true ∧ d.1.pixel py (Fin.ofNat 64 (ox + b)) = true) := by
  have hm : ∀ b, b ∈ [0, 1, 2, 3, 4, 5, 6, 7] ↔ b < 8 := fun b => by
    simp only [List.mem_cons, List.not_mem_nil, or_false]; omega
  have h := drawBits_spec row py ox [0, 1, 2, 3, 4, 5, 6, 7] d (fun b hb => (hm b).1 hb) (by decide)
  simpa only [hm, drawRow] using h

/-! ### A run of rows -/

/-- Everything that drawing rows `i`, `i + 1`, ... does, as long as they are under 32 and so distinct. -/
theorem drawRows_spec (ox oy i : Nat) (sprite : List Byte) (d : Drawing) (h : i + sprite.length ≤ 32) :
    (∀ y x, (drawRows ox oy i sprite d).1.pixel y x ≠ d.1.pixel y x ↔
      ∃ k, ∃ hk : k < sprite.length, y = Fin.ofNat 32 (oy + (i + k)) ∧
        ∃ b, b < 8 ∧ x = Fin.ofNat 64 (ox + b) ∧ sprite[k].getLsbD (7 - b) = true) ∧
    ((drawRows ox oy i sprite d).2 = true ↔
      d.2 = true ∨ ∃ k, ∃ hk : k < sprite.length, ∃ b, b < 8 ∧ sprite[k].getLsbD (7 - b) = true ∧
        d.1.pixel (Fin.ofNat 32 (oy + (i + k))) (Fin.ofNat 64 (ox + b)) = true) := by
  induction sprite generalizing i d with
  | nil => simp [drawRows]
  | cons row rest ih =>
    simp only [List.length_cons] at h
    obtain ⟨ihp, ihc⟩ := ih (i + 1) (drawRow row (Fin.ofNat 32 (oy + i)) ox d) (by omega)
    obtain ⟨rp, rc⟩ := drawRow_spec row (Fin.ofNat 32 (oy + i)) ox d
    have far : ∀ k, k < rest.length → Fin.ofNat 32 (oy + (i + 1 + k)) ≠ Fin.ofNat 32 (oy + i) := fun k hk e => by
      have := row_injective (oy := oy) (a := i + 1 + k) (b := i) (by omega) (by omega) e
      omega
    have shift : ∀ k, i + 1 + k = i + (k + 1) := fun k => by omega
    refine ⟨fun y x => ?_, ?_⟩
    · have ihp := ihp y x
      have rp := rp y x
      simp only [drawRows]
      have split : (∃ k, ∃ hk : k < (row :: rest).length, y = Fin.ofNat 32 (oy + (i + k)) ∧
            ∃ b, b < 8 ∧ x = Fin.ofNat 64 (ox + b) ∧ (row :: rest)[k].getLsbD (7 - b) = true) ↔
          (y = Fin.ofNat 32 (oy + i) ∧ ∃ b, b < 8 ∧ x = Fin.ofNat 64 (ox + b) ∧ row.getLsbD (7 - b) = true) ∨
          ∃ k, ∃ hk : k < rest.length, y = Fin.ofNat 32 (oy + (i + 1 + k)) ∧
            ∃ b, b < 8 ∧ x = Fin.ofNat 64 (ox + b) ∧ rest[k].getLsbD (7 - b) = true := by
        constructor
        · rintro ⟨k, hk, e, hbit⟩
          cases k with
          | zero => exact .inl ⟨e, hbit⟩
          | succ k => exact .inr ⟨k, by simpa using hk, by rw [shift]; exact e, hbit⟩
        · rintro (⟨e, hbit⟩ | ⟨k, hk, e, hbit⟩)
          · exact ⟨0, by simp, e, hbit⟩
          · exact ⟨k + 1, by simpa using hk, by rw [← shift]; exact e, hbit⟩
      rw [split]
      by_cases hr : y = Fin.ofNat 32 (oy + i)
      · have none : ¬ ∃ k, ∃ hk : k < rest.length, y = Fin.ofNat 32 (oy + (i + 1 + k)) ∧
            ∃ b, b < 8 ∧ x = Fin.ofNat 64 (ox + b) ∧ rest[k].getLsbD (7 - b) = true :=
          fun ⟨k, hk, e, _⟩ => far k hk (e.symm.trans hr)
        simp only [none, iff_false, not_not] at ihp
        rw [ihp, rp]
        simp only [none, or_false]
      · simp only [hr, false_and, iff_false, not_not] at rp
        rw [rp] at ihp
        rw [ihp]
        simp only [hr, false_and, false_or]
    · simp only [drawRows]
      rw [ihc, rc, or_assoc]
      refine or_congr_right ?_
      have unchanged : ∀ k, k < rest.length → ∀ x,
          (drawRow row (Fin.ofNat 32 (oy + i)) ox d).1.pixel (Fin.ofNat 32 (oy + (i + 1 + k))) x =
            d.1.pixel (Fin.ofNat 32 (oy + (i + 1 + k))) x := fun k hk x => by
        by_contra hne
        exact far k hk ((rp _ _).1 hne).1
      constructor
      · rintro (⟨b, hb, hbit, hp⟩ | ⟨k, hk, b, hb, hbit, hp⟩)
        · exact ⟨0, by simp, b, hb, hbit, hp⟩
        · rw [unchanged k hk, shift] at hp
          exact ⟨k + 1, by simpa using hk, b, hb, hbit, hp⟩
      · rintro ⟨k, hk, b, hb, hbit, hp⟩
        cases k with
        | zero => exact .inl ⟨b, hb, hbit, hp⟩
        | succ k =>
          have hk' : k < rest.length := by simpa using hk
          refine .inr ⟨k, hk', b, hb, hbit, ?_⟩
          rw [unchanged k hk', shift]; exact hp

end Sys2Proof.Machine
end

