-- ==== Sys2Proof/Laws/PerInstr.lean ====
section
/-! SUPPORT. The family HasRow: the word of a well-formed instruction selects a row of the opcode table whose operand
extraction gives that instruction back (spec/30_encoding.md R86, R95). One lemma per constructor. -/

namespace Sys2Proof.Laws.HasRow

/-- Some row of the opcode table is selected by the instruction's word and builds the instruction from it. -/
def Statement (i : Instr) : Prop :=
  i.WellFormed → ∃ r ∈ opcodeTable, r.selects (encode i) = true ∧ r.build (encode i) = i

theorem ofIndex {i : Instr} (k : Fin 14) (hs : opcodeTable[k].selects (encode i) = true)
    (hb : opcodeTable[k].build (encode i) = i) : Statement i :=
  fun _ => ⟨_, List.getElem_mem _, hs, hb⟩

theorem ofNat_toNat {n : Nat} (h : n < 65536) : (BitVec.ofNat 16 n).toNat = n := by
  rw [BitVec.toNat_ofNat, Nat.mod_eq_of_lt h]

theorem fieldX_eq {w : Word} {x : Reg} (h : w.toNat / 256 % 16 = x.val) : fieldX w = x :=
  Fin.ext ((fieldX_val w).trans h)

theorem fieldY_eq {w : Word} {y : Reg} (h : w.toNat / 16 % 16 = y.val) : fieldY w = y :=
  Fin.ext ((fieldY_val w).trans h)

theorem fieldKk_eq {w : Word} {kk : Byte} (h : w.toNat % 256 = kk.toNat) : fieldKk w = kk :=
  BitVec.eq_of_toNat_eq ((fieldKk_toNat w).trans h)

theorem fieldNnn_eq {w : Word} {nnn : Word} (h : w.toNat % 4096 = nnn.toNat) : fieldNnn w = nnn :=
  BitVec.eq_of_toNat_eq ((fieldNnn_toNat w).trans h)

/-- The number of a word of format XK. -/
theorem wordXK (base : Nat) (hb : base < 16) (x : Reg) (kk : Byte) :
    (BitVec.ofNat 16 (base * 4096 + x.val * 256 + kk.toNat)).toNat = base * 4096 + x.val * 256 + kk.toNat :=
  ofNat_toNat (by have := kk.isLt; have := x.isLt; omega)

/-- The number of a word of format FX. -/
theorem wordFX (low : Nat) (hl : low < 256) (x : Reg) :
    (BitVec.ofNat 16 (15 * 4096 + low + x.val * 256)).toNat = 15 * 4096 + low + x.val * 256 :=
  ofNat_toNat (by have := x.isLt; omega)

theorem cls : Statement .cls := ofIndex 0 (by decide) rfl
theorem ret : Statement .ret := ofIndex 1 (by decide) rfl

theorem jp (nnn : Word) : Statement (.jp nnn) := fun h => by
  have hn : nnn.toNat < 4096 := of_decide_eq_true h
  have e : (encode (.jp nnn)).toNat = 1 * 4096 + nnn.toNat := ofNat_toNat (by omega)
  exact ofIndex 2 ((TableRow.selects_F000 _).2 (by rw [e, show (0x1000 : Word).toNat = 1 * 4096 from rfl]; omega))
    (congrArg Instr.jp (fieldNnn_eq (by omega))) h

theorem call (nnn : Word) : Statement (.call nnn) := fun h => by
  have hn : nnn.toNat < 4096 := of_decide_eq_true h
  have e : (encode (.call nnn)).toNat = 2 * 4096 + nnn.toNat := ofNat_toNat (by omega)
  exact ofIndex 3 ((TableRow.selects_F000 _).2 (by rw [e, show (0x2000 : Word).toNat = 2 * 4096 from rfl]; omega))
    (congrArg Instr.call (fieldNnn_eq (by omega))) h

theorem se (x : Reg) (kk : Byte) : Statement (.se x kk) := by
  have e : (encode (.se x kk)).toNat = 3 * 4096 + x.val * 256 + kk.toNat := wordXK 3 (by omega) x kk
  have := kk.isLt; have := x.isLt
  refine ofIndex 4 ((TableRow.selects_F000 _).2 (by rw [e, show (0x3000 : Word).toNat = 3 * 4096 from rfl]; omega)) ?_
  show Instr.se (fieldX (encode (.se x kk))) (fieldKk (encode (.se x kk))) = _
  rw [fieldX_eq (x := x) (by omega), fieldKk_eq (kk := kk) (by omega)]

theorem ldk (x : Reg) (kk : Byte) : Statement (.ldk x kk) := by
  have e : (encode (.ldk x kk)).toNat = 6 * 4096 + x.val * 256 + kk.toNat := wordXK 6 (by omega) x kk
  have := kk.isLt; have := x.isLt
  refine ofIndex 5 ((TableRow.selects_F000 _).2 (by rw [e, show (0x6000 : Word).toNat = 6 * 4096 from rfl]; omega)) ?_
  show Instr.ldk (fieldX (encode (.ldk x kk))) (fieldKk (encode (.ldk x kk))) = _
  rw [fieldX_eq (x := x) (by omega), fieldKk_eq (kk := kk) (by omega)]

theorem addk (x : Reg) (kk : Byte) : Statement (.addk x kk) := by
  have e : (encode (.addk x kk)).toNat = 7 * 4096 + x.val * 256 + kk.toNat := wordXK 7 (by omega) x kk
  have := kk.isLt; have := x.isLt
  refine ofIndex 6 ((TableRow.selects_F000 _).2 (by rw [e, show (0x7000 : Word).toNat = 7 * 4096 from rfl]; omega)) ?_
  show Instr.addk (fieldX (encode (.addk x kk))) (fieldKk (encode (.addk x kk))) = _
  rw [fieldX_eq (x := x) (by omega), fieldKk_eq (kk := kk) (by omega)]

theorem mov (x y : Reg) : Statement (.mov x y) := by
  have := x.isLt; have := y.isLt
  have e : (encode (.mov x y)).toNat = 8 * 4096 + x.val * 256 + y.val * 16 := ofNat_toNat (by omega)
  refine ofIndex 7 ((TableRow.selects_F000 _).2 (by rw [e, show (0x8000 : Word).toNat = 8 * 4096 from rfl]; omega)) ?_
  show Instr.mov (fieldX (encode (.mov x y))) (fieldY (encode (.mov x y))) = _
  rw [fieldX_eq (x := x) (by omega), fieldY_eq (y := y) (by omega)]

theorem ldi (nnn : Word) : Statement (.ldi nnn) := fun h => by
  have hn : nnn.toNat < 4096 := of_decide_eq_true h
  have e : (encode (.ldi nnn)).toNat = 10 * 4096 + nnn.toNat := ofNat_toNat (by omega)
  exact ofIndex 8 ((TableRow.selects_F000 _).2 (by rw [e, show (0xA000 : Word).toNat = 10 * 4096 from rfl]; omega))
    (congrArg Instr.ldi (fieldNnn_eq (by omega))) h

theorem drw (x y : Reg) (n : Nat) : Statement (.drw x y n) := fun h => by
  have hn : n < 16 := of_decide_eq_true h
  have := x.isLt; have := y.isLt
  have e : (encode (.drw x y n)).toNat = 13 * 4096 + x.val * 256 + y.val * 16 + n := ofNat_toNat (by omega)
  refine ofIndex 9 ((TableRow.selects_F000 _).2 (by rw [e, show (0xD000 : Word).toNat = 13 * 4096 from rfl]; omega)) ?_ h
  show Instr.drw (fieldX (encode (.drw x y n))) (fieldY (encode (.drw x y n))) (fieldN (encode (.drw x y n))) = _
  rw [fieldX_eq (x := x) (by omega), fieldY_eq (y := y) (by omega), fieldN_eq, e]
  congr 1; omega

theorem ldf (x : Reg) : Statement (.ldf x) := by
  have e : (encode (.ldf x)).toNat = 15 * 4096 + 0x29 + x.val * 256 := wordFX 0x29 (by omega) x
  have := x.isLt
  exact ofIndex 10 ((TableRow.selects_F0FF _).2 (by
    rw [e, show (0xF029 : Word).toNat = 15 * 4096 + 0x29 from rfl]; omega)) (congrArg Instr.ldf (fieldX_eq (by omega)))

theorem bcd (x : Reg) : Statement (.bcd x) := by
  have e : (encode (.bcd x)).toNat = 15 * 4096 + 0x33 + x.val * 256 := wordFX 0x33 (by omega) x
  have := x.isLt
  exact ofIndex 11 ((TableRow.selects_F0FF _).2 (by
    rw [e, show (0xF033 : Word).toNat = 15 * 4096 + 0x33 from rfl]; omega)) (congrArg Instr.bcd (fieldX_eq (by omega)))

theorem stm (x : Reg) : Statement (.stm x) := by
  have e : (encode (.stm x)).toNat = 15 * 4096 + 0x55 + x.val * 256 := wordFX 0x55 (by omega) x
  have := x.isLt
  exact ofIndex 12 ((TableRow.selects_F0FF _).2 (by
    rw [e, show (0xF055 : Word).toNat = 15 * 4096 + 0x55 from rfl]; omega)) (congrArg Instr.stm (fieldX_eq (by omega)))

theorem ldm (x : Reg) : Statement (.ldm x) := by
  have e : (encode (.ldm x)).toNat = 15 * 4096 + 0x65 + x.val * 256 := wordFX 0x65 (by omega) x
  have := x.isLt
  exact ofIndex 13 ((TableRow.selects_F0FF _).2 (by
    rw [e, show (0xF065 : Word).toNat = 15 * 4096 + 0x65 from rfl]; omega)) (congrArg Instr.ldm (fieldX_eq (by omega)))

end Sys2Proof.Laws.HasRow
end

