-- ==== Sys2Proof/Tests/Slice0.lean ====
section
/-! SUPPORT. The model's own tests: ill-formed instructions, words written out from spec/30_encoding.md R86, test vectors
of spec/95_test_vectors.md, and a witness for the hypotheses of each statement. -/

namespace Sys2Proof.Tests

open Sys2Proof Sys2Proof.Machine

/-! ### WellFormed smoke: an ill-formed term for each check -/

theorem test_jp_address_too_wide : (Instr.jp 0x1000).wellFormed = false := by decide
theorem test_call_address_too_wide : (Instr.call 0xFFFF).wellFormed = false := by decide
theorem test_ldi_address_too_wide : (Instr.ldi 0x1000).wellFormed = false := by decide
theorem test_drw_too_many_rows : (Instr.drw 0 0 16).wellFormed = false := by decide
theorem test_bounds_are_well_formed : (Instr.jp 0xFFF).wellFormed = true ∧ (Instr.drw 0 0 15).wellFormed = true := by
  decide

/-! ### Decoding: words written out bit by bit from the patterns of 30_encoding.md R86 -/

theorem test_decode_cls : decodeWord 0b0000_0000_1110_0000 = some .cls := by decide
theorem test_decode_ret : decodeWord 0b0000_0000_1110_1110 = some .ret := by decide
theorem test_decode_jp : decodeWord 0b0001_0010_0000_0110 = some (.jp 0x206) := by decide
theorem test_decode_call : decodeWord 0b0010_1010_1011_1100 = some (.call 0xABC) := by decide
theorem test_decode_se : decodeWord 0b0011_0011_0010_1010 = some (.se 3 0x2A) := by decide
theorem test_decode_ldk : decodeWord 0b0110_0001_0000_0101 = some (.ldk 1 0x05) := by decide
theorem test_decode_addk : decodeWord 0b0111_0010_0010_0000 = some (.addk 2 0x20) := by decide
theorem test_decode_mov : decodeWord 0b1000_0001_0010_0000 = some (.mov 1 2) := by decide
theorem test_decode_mov_low_nibble : decodeWord 0b1000_0001_0010_1110 = some (.mov 1 2) := by decide
theorem test_decode_ldi : decodeWord 0b1010_0001_0000_0000 = some (.ldi 0x100) := by decide
theorem test_decode_drw : decodeWord 0b1101_1010_1011_1100 = some (.drw 10 11 12) := by decide
theorem test_decode_ldf : decodeWord 0b1111_0100_0010_1001 = some (.ldf 4) := by decide
theorem test_decode_bcd : decodeWord 0b1111_0001_0011_0011 = some (.bcd 1) := by decide
theorem test_decode_stm : decodeWord 0b1111_0011_0101_0101 = some (.stm 3) := by decide
theorem test_decode_ldm : decodeWord 0b1111_1110_0110_0101 = some (.ldm 14) := by decide

/-- 95_test_vectors.md T3, T7, T11: words that decode to nothing. -/
theorem test_decode_illegal :
    ([0x00E1, 0x00EF, 0x00FE, 0x01E0, 0x0000, 0x0123, 0x4000, 0x5120, 0x9AB0, 0xB200, 0xC0FF, 0xE09E, 0xE0A1, 0xF007,
      0xF00A, 0xF015, 0xF018, 0xF01E, 0xF028, 0xF02A, 0xF034, 0xF054, 0xF066, 0xF0FF] : List Word).all
      (fun w => (decodeWord w).isNone) = true := by decide

/-! ### One step on a small state -/

/-- The state after one step from `s` with the word `w` placed at `pc`. -/
def after (s : State) (w : Nat) : Option State :=
  match step (s.withFetchWord 16 w) with
  | .next t => some t
  | _ => none

/-- The state after reset with `I` and `V[0]`, `V[1]`, ... set. -/
def start (i : Word) (regs : List Byte) : State := (State.reset.setI i).setRegsFrom 0 regs

/-- The state after reset with bytes at `a`. -/
def startWith (i : Word) (regs : List Byte) (a : Nat) (bytes : List Byte) : State :=
  match (start i regs).memWrite a bytes with
  | .ok t => t
  | .error _ => start i regs

/-- T20, T23: JP, also to an odd address. -/
theorem test_jp : (after State.reset 0x1ABC).map (·.pc) = some 0xABC ∧ (after State.reset 0x1203).map (·.pc) = some 0x203 := by
  decide

/-- T25: CALL with fifteen entries in use. -/
theorem test_call_sixteenth : (after { State.reset with sp := 15 } 0x2300).map (fun t => (t.slot 15, t.sp, t.pc, t.status)) =
    some (0x200, 16, 0x300, .running) := by decide

/-- T26: CALL with sixteen entries in use. -/
theorem test_call_overflow : (after { State.reset with sp := 16 } 0x2300).map (fun t => (t.sp, t.pc, t.status)) =
    some (16, 0x200, .faulted .stackOverflow) := by decide

/-- T28: RET, the popped slot kept. -/
theorem test_ret : (after { State.reset with sp := 2, stack := State.reset.stack.set 1 0x24E, pc := 0x300 } 0x00EE).map
    (fun t => (t.sp, t.pc, t.slot 1)) = some (1, 0x250, 0x24E) := by decide

/-- T29: RET with an empty stack. -/
theorem test_ret_underflow : (after { State.reset with pc := 0x300 } 0x00EE).map (fun t => (t.sp, t.pc, t.status)) =
    some (0, 0x300, .faulted .stackUnderflow) := by decide

/-- T31, T32: SE taken and not taken. -/
theorem test_se : (after { State.reset.setReg 3 0x2A with pc := 0x300 } 0x332A).map (·.pc) = some 0x304 ∧
    (after { State.reset.setReg 3 0x2B with pc := 0x300 } 0x332A).map (·.pc) = some 0x302 := by decide

/-- T35: SE taken at the last word of memory. -/
theorem test_se_at_end : (after { State.reset with pc := 0xFFE } 0x3000).map (·.pc) = some 0x1002 := by decide

/-- S7: LDK. -/
theorem test_ldk : (after State.reset 0x600A).map (fun t => (t.reg 0, t.pc)) = some (0x0A, 0x202) := by decide

/-- T43: ADDK wraps and sets no flag. -/
theorem test_addk_wraps : (after ((State.reset.setReg 2 0xFF).setReg 15 7) 0x7201).map (fun t => (t.reg 2, t.reg 15)) =
    some (0x00, 7) := by decide

/-- T49: the low nibble of MOV is ignored. -/
theorem test_mov : (after (((State.reset.setReg 1 0xAA).setReg 2 0x55).setReg 15 3) 0x8124).map
    (fun t => (t.reg 1, t.reg 2, t.reg 15)) = some (0x55, 0x55, 3) := by decide

/-- T52: LDI. -/
theorem test_ldi : (after (State.reset.setI 0x123) 0xAFFF).map (·.I) = some 0x0FFF := by decide

/-- T59: LDF with FONT_BASE = 0x050. -/
theorem test_ldf_other_base :
    (after { State.reset.setReg 4 3 with config := { defaultConfig with fontBase := 0x050 } } 0xF429).map (·.I) =
    some 0x05F := by decide

/-- T57: LDF of 0x10. -/
theorem test_ldf_invalid : (after ((State.reset.setReg 4 0x10).setI 0x123) 0xF429).map (fun t => (t.I, t.pc, t.status)) =
    some (0x123, 0x200, .faulted .invalidDigit) := by decide

/-- T60, one pixel of it: CLS turns it off and leaves `V[15]`. -/
theorem test_cls : (after { State.reset.setReg 15 1 with fb := Framebuffer.allOff.setPixel 3 5 true } 0x00E0).map
    (fun t => (t.fb.pixel 3 5, t.reg 15, t.pc)) = some (false, 1, 0x202) := by decide

/-- T63: DRW wraps at the right and at the bottom. -/
theorem test_drw_wraps : (after (startWith 0x300 [0, 62, 31] 0x300 [0xFF, 0x81]) 0xD122).map
    (fun t => (t.reg 15, [(31, 61), (31, 62), (31, 5), (31, 6), (0, 62), (0, 63), (0, 5)].map (fun p => t.fb.pixel p.1 p.2))) =
    some (0, [false, true, true, false, true, false, true]) := by decide

/-- T65: a collision with as many pixels lit after as before; T72's origin register is read before the flag is written. -/
theorem test_drw_collides :
    (after { startWith 0x300 [] 0x300 [0xC0] with fb := Framebuffer.allOff.setPixel 0 0 true } 0xD011).map
      (fun t => (t.reg 15, t.fb.pixel 0 0, t.fb.pixel 0 1)) = some (1, false, true) ∧
    (after ((startWith 0x300 [] 0x300 [0x80]).setReg 15 10) 0xDFF1).map (fun t => (t.reg 15, t.fb.pixel 10 10)) =
      some (0, true) := by decide

/-- The bytes at `a`, `a + 1`, ... of the state after a step. -/
def bytesAt (t : State) (a n : Nat) : Option (List Byte) :=
  match t.readSlice a n with
  | .ok bytes => some bytes
  | .error _ => none

/-- T80: BCD. -/
theorem test_bcd : (after (start 0x300 [234]) 0xF033).bind (bytesAt · 0x300 3) = some [2, 3, 4] := by decide

/-- T91: BCD past the end writes nothing. -/
theorem test_bcd_out_of_bounds : (after (startWith 0xFFE [255] 0xFFE [0xAA, 0xBB]) 0xF033).map
    (fun t => (bytesAt t 0xFFE 2, t.status)) = some (some [0xAA, 0xBB], .faulted .memoryBounds) := by decide

/-- T92: STM stores up to Vx and no further. -/
theorem test_stm : (after (startWith 0x208 [0x12, 0x0A, 0x77] 0x20A [0x99]) 0xF155).map
    (fun t => (bytesAt t 0x208 3, t.I)) = some (some [0x12, 0x0A, 0x99], 0x208) := by decide

/-- T96: LDM loads up to Vx and no further. -/
theorem test_ldm : (after (startWith 0x300 [0, 0, 0, 0xEE] 0x300 [2, 3, 4]) 0xF265).map
    (fun t => (t.reg 0, t.reg 1, t.reg 2, t.reg 3, t.I)) = some (2, 3, 4, 0xEE, 0x300) := by decide

/-- T99: LDM past the end changes no register. -/
theorem test_ldm_out_of_bounds : (after (start 0xFFF [1, 2]) 0xF165).map (fun t => (t.reg 0, t.reg 1, t.status)) =
    some (1, 2, .faulted .memoryBounds) := by decide

/-- T114, T115: no tick on a faulting step; one tick on a completing one. -/
theorem test_timers : (after { State.reset with DT := 5 } 0xFFFF).map (fun t => (t.DT, t.status)) =
      some (5, .faulted .decodeError) ∧
    (after { State.reset with DT := 1, ST := 255 } 0x6000).map (fun t => (t.DT, t.ST)) = some (0, 254) := by decide

/-- T112, T113: nothing can be fetched at 0xFFF or 0xFFFF. -/
theorem test_fetch_out_of_bounds : (after { State.reset with pc := 0xFFF } 0x6000).map (·.status) =
      some (.faulted .memoryBounds) ∧
    (after { State.reset with pc := 0xFFFF } 0x6000).map (·.status) = some (.faulted .memoryBounds) := by decide

/-- T131 to T133: memory after reset. -/
theorem test_reset_memory : bytesAt State.reset 0x000 5 = some [0xF0, 0x90, 0x90, 0x90, 0xF0] ∧
    bytesAt State.reset 0x04B 6 = some [0xF0, 0x80, 0xF0, 0x80, 0x80, 0x00] ∧ bytesAt State.reset 0xFFF 1 = some [0] := by
  decide

/-- T134 to T136: the keys. -/
theorem test_keys : (operate (.press 15) (operate (.press 3) State.reset).2).2.keys = 0x8008 ∧
    (operate (.release 3) { State.reset with keys := 0x8008 }).2.keys = 0x8000 ∧
    (operate (.release 255) State.reset).1 = .failed .invalidKey := by decide

/-- 95_test_vectors.md P1, first and last line: `LDK V0, 0x0A` is 0x600A and `DW 0x0000` is 0x0000. -/
theorem test_assemble_p1 : assembleProgram [['L', 'D', 'K', ' ', 'V', '0', ',', ' ', '0', 'x', '0', 'A'],
    ['D', 'W', ' ', '0', 'x', '0', '0', '0', '0']] = some [0x60, 0x0A, 0x00, 0x00] := by decide

/-- 30_encoding.md R93: `DRW VA, VF, 15` is a line, `DRW V0, VF, 16` and `JP 0x1000` are rejected. -/
theorem test_assemble_ranges :
    assembleLine ['D', 'R', 'W', ' ', 'V', 'A', ',', ' ', 'V', 'F', ',', ' ', '1', '5'] = some [0xDA, 0xFF] ∧
    assembleLine ['D', 'R', 'W', ' ', 'V', '0', ',', ' ', 'V', 'F', ',', ' ', '1', '6'] = none ∧
    assembleLine ['J', 'P', ' ', '0', 'x', '1', '0', '0', '0'] = none := by decide

/-- Writing the reset contents of a byte leaves no entry. -/
theorem test_memory_canonical : Memory.put defaultConfig 0x300 0 (Memory.put defaultConfig 0x300 7 []) = [] ∧
    Memory.put defaultConfig 0 0xF0 (Memory.put defaultConfig 0 1 []) = [] := by decide

/-! ### Witnesses: states and operands that meet the hypotheses of the statements, clause by clause -/

theorem witness_decode_clauses : (0x1FFF : Word).toNat / 4096 = 1 ∧ (0x2ABC : Word).toNat / 4096 = 2 ∧
    (0x3F00 : Word).toNat / 4096 = 3 ∧ (0x6FFF : Word).toNat / 4096 = 6 ∧ (0x7FFF : Word).toNat / 4096 = 7 ∧
    (0x812F : Word).toNat / 4096 = 8 ∧ (0xAFFF : Word).toNat / 4096 = 10 ∧ (0xDABC : Word).toNat / 4096 = 13 := by decide

theorem witness_decode_fx_clauses : ∀ p ∈ [(0xFF29, 0x29), (0xF133, 0x33), (0xF355, 0x55), (0xFE65, 0x65)],
    (BitVec.ofNat 16 p.1).toNat / 4096 = 15 ∧ (BitVec.ofNat 16 p.1).toNat % 256 = p.2 := by decide

theorem witness_CallPushesOwnAddress : ({ State.reset with sp := 15 } : State).sp.val < 16 := by decide
theorem witness_RetReturnsPastCallSite : 0 < ({ State.reset with sp := 1 } : State).sp.val := by decide
theorem witness_LdfPointsToGlyph : ((State.reset.setReg 4 15).reg 4).toNat ≤ 15 := by decide

/-- The largest sprite at the last address it fits, and the empty one at the end of memory. -/
theorem witness_DrwFlipsSpriteAndReportsCollision : 15 < 16 ∧ (State.reset.setI 0xFF1).effectiveAddress 0 + 15 ≤ 4096 ∧
    (State.reset.setI 0x1000).effectiveAddress 0 + 0 ≤ 4096 := by decide

/-- A sprite that hits a lit pixel; on a dark display the same sprite hits none. -/
theorem witness_DrwCollisionClauses :
    (∃ py px, SpriteFlips [0x80] 0 0 py px ∧ (Framebuffer.allOff.setPixel 0 0 true).pixel py px = true) ∧
    ¬ ∃ py px, SpriteFlips [0x80] 0 0 py px ∧ Framebuffer.allOff.pixel py px = true := by
  refine ⟨⟨0, 0, ⟨0, by decide, 0, by decide, by decide, by decide, by decide⟩, by decide⟩, ?_⟩
  rintro ⟨py, px, -, h⟩
  rw [Framebuffer.pixel_allOff] at h
  exact absurd h (by decide)

theorem witness_BcdStoresDecimalDigits : (State.reset.setI 0xFFD).effectiveAddress 0 + 3 ≤ 4096 := by decide
theorem witness_StmStoresRegisters : (State.reset.setI 0xFF0).effectiveAddress 0 + (15 : Reg).val + 1 ≤ 4096 := by decide
theorem witness_LdmLoadsRegisters : (State.reset.setI 0xFFF).effectiveAddress 0 + (0 : Reg).val + 1 ≤ 4096 := by decide

theorem witness_CallAndRetFaultAtStackLimits : ({ State.reset with sp := 16 } : State).sp.val = 16 ∧
    State.reset.sp.val = 0 := by decide

theorem witness_LdfFaultsOnDigitOverFifteen : 15 < ((State.reset.setReg 4 16).reg 4).toNat := by decide

theorem witness_TransfersFaultOutsideMemory : 4096 < (State.reset.setI 0xFF2).effectiveAddress 0 + 15 ∧
    4096 < (State.reset.setI 0x1001).effectiveAddress 0 + 0 ∧
    4096 < (State.reset.setI 0xFFE).effectiveAddress 0 + 3 ∧
    4096 < (State.reset.setI 0xFF1).effectiveAddress 0 + ((15 : Reg).val + 1) ∧
    4096 < (State.reset.setI 0xFFF).effectiveAddress 0 + ((1 : Reg).val + 1) := by decide

/-- A CALL to 0x300 at 0x200, and the state it leaves. -/
theorem witness_CallThenRetResumesAfterCall : ∃ t, exec (.call 0x300) State.reset = .next t ∧ t.sp = t.sp ∧
    State.reset.sp.val < 16 ∧ t.slot 0 = t.slot 0 := ⟨_, rfl, rfl, by decide, rfl⟩

/-- 95_test_vectors.md P4, step 4. -/
theorem witness_StoredWordIsFetchedNext : 1 ≤ (1 : Reg).val ∧
    ({ start 0x208 [0x12, 0x0A] with pc := 0x206 } : State).effectiveAddress 0 =
      ({ start 0x208 [0x12, 0x0A] with pc := 0x206 } : State).pc.toNat + 2 ∧
    ({ start 0x208 [0x12, 0x0A] with pc := 0x206 } : State).effectiveAddress 0 + (1 : Reg).val + 1 ≤ 4096 := by decide

/-- LDK after reset, which completes. -/
theorem witness_StepRunsDecodedInstruction_running :
    (State.reset.withFetchWord 16 0x600A).status = .running ∧
    bytesAt (State.reset.withFetchWord 16 0x600A) (State.reset.withFetchWord 16 0x600A).pc.toNat 2 = some [0x60, 0x0A] ∧
    (∃ t, decode [0x60, 0x0A] = .ok (.ldk 0 0x0A, []) ∧
      exec (.ldk 0 0x0A) (State.reset.withFetchWord 16 0x600A) = .next t ∧ t.status = .running) :=
  ⟨by decide, by decide, _, by decide, rfl, by decide⟩

/-- RET after reset, which faults. -/
theorem witness_StepRunsDecodedInstruction_faulted :
    ∃ t, exec .ret (State.reset.withFetchWord 16 0x00EE) = .next t ∧ t.status = .faulted .stackUnderflow :=
  ⟨_, rfl, by decide⟩

theorem witness_FetchAndDecodeFaults : ({ State.reset with pc := 4095 } : State).status = .running ∧
    4095 ≤ ({ State.reset with pc := 4095 } : State).pc.toNat ∧ State.reset.status = .running ∧
    State.reset.readByte State.reset.pc.toNat = .ok 0 ∧ State.reset.readByte (State.reset.pc.toNat + 1) = .ok 0 ∧
    decode [0, 0] = .error (.noTableRow 0) := by decide

theorem witness_NoStepWhileFaulted : (State.reset.takeFault .decodeError).status = .faulted .decodeError := by decide

theorem witness_running : State.reset.status = .running := by decide

/-- 95_test_vectors.md S10: `DT = 3`, `ST = 1`, JP 0x200. -/
theorem witness_CompletingStepTicksTimers :
    ∃ t, StepCompletes (({ State.reset with DT := 3, ST := 1 } : State).withFetchWord 16 0x1200) t :=
  ⟨_, rfl, by decide⟩

theorem witness_SelfJumpRunsForever : (State.reset.withFetchWord 16 0x1200).status = .running ∧
    (State.reset.withFetchWord 16 0x1200).readByte (State.reset.withFetchWord 16 0x1200).pc.toNat = .ok 0x12 ∧
    (State.reset.withFetchWord 16 0x1200).readByte ((State.reset.withFetchWord 16 0x1200).pc.toNat + 1) = .ok 0x00 ∧
    decode [0x12, 0x00] = .ok (.jp (State.reset.withFetchWord 16 0x1200).pc, []) := by decide

theorem witness_DecodeInvertsEncode : (Instr.jp 0xFFF).WellFormed ∧ (Instr.drw 15 15 15).WellFormed := by decide

theorem witness_EncodeInvertsDecodeButMovNibble : decodeWord 0x812F = some (.mov 1 2) ∧ (0x812F : Word).toNat / 4096 = 8 ∧
    decodeWord 0xDABC = some (.drw 10 11 12) ∧ (0xDABC : Word).toNat / 4096 ≠ 8 := by decide

/-- 95_test_vectors.md P1, `LDK V0, 0x0A`: an instruction whose form and line are written out by hand. -/
theorem witness_AssemblerLinesEncodeInstructions : (Instr.ldk 0 0x0A).WellFormed ∧
    assembleInstr ['L', 'D', 'K'] [.reg 0, .imm 10] = some (.ldk 0 0x0A) ∧
    lineOf (.ldk 0 0x0A) = ['L', 'D', 'K', ' ', 'V', '0', ',', ' ', '0', 'x', 'A'] := by decide

/-- Each immediate at the end of its range, and one past it. -/
theorem witness_AssemblerLinesGiveTableWords : 0xFFF ≤ 0xFFF ∧ ¬ 0x1000 ≤ 0xFFF ∧ 0xFF ≤ 0xFF ∧ ¬ 0x100 ≤ 0xFF ∧
    15 ≤ 15 ∧ ¬ 16 ≤ 15 := by decide

theorem witness_AssemblerReadsWrittenLines : ['D', 'R', 'W'] ≠ [] ∧ (∀ c ∈ ['D', 'R', 'W'], c ≠ ' ') ∧
    asmLine ['D', 'R', 'W'] [.reg 10, .imm 44] = ['D', 'R', 'W', ' ', 'V', 'A', ',', ' ', '0', 'x', '2', 'C'] :=
  ⟨by simp, by simp, by decide⟩

/-- A step that completes, a step that faults, and a Faulted state. -/
theorem witness_HostStepAndLoadByStatus :
    (operate .step (State.reset.withFetchWord 16 0x600A)).1 = .ok ∧ (operate .step State.reset).1 = .failed .decodeError ∧
    (operate .step State.reset).2.status = .faulted .decodeError := by decide

theorem witness_NoWordSelectsTwoRows : ∃ j : Fin opcodeTable.length, opcodeTable[j].selects 0x00E0 = true :=
  ⟨⟨0, by decide⟩, by decide⟩

theorem witness_DecodedInstructionsAreWellFormed : decode [0xD1, 0x2F, 0x77] = .ok (.drw 1 2 15, [0x77]) := by decide

theorem witness_WriteByteSetsOneByte : 4095 ≤ 4095 ∧ 4095 < 4096 := by decide
theorem witness_ReadWordIsBigEndian : 4094 + 1 ≤ 4095 ∧ 4095 < 4095 + 1 := by decide

/-- 95_test_vectors.md S1 and S2. -/
theorem witness_LoadThenReadSliceRoundTrip : 0xFFD + ([0xDE, 0xAD, 0xBE] : List Byte).length ≤ 4096 ∧
    4096 < 0xFFD + ([1, 2, 3, 4] : List Byte).length := by decide

theorem witness_sprite_lengths : ([0xF0] : List Byte).length ≤ 32 ∧ (List.replicate 15 (0xFF : Byte)).length ≤ 32 := by
  decide

/-- Two sprites that flip one pixel: bit 7 at column 1, and bit 6 at column 0. -/
theorem witness_DrawLaws : SpriteFlips [0x80] 1 0 0 1 ∧ SpriteFlips [0x40] 0 0 0 1 :=
  ⟨⟨0, by decide, 0, by decide, by decide, by decide, by decide⟩,
    ⟨0, by decide, 1, by decide, by decide, by decide, by decide⟩⟩

theorem witness_PressAndReleaseChangeOneKey : 15 ≤ 15 ∧ 15 < 16 := by decide

/-- 95_test_vectors.md T129 and T130. -/
theorem witness_ProgramLoadCopiesImage : State.reset.status = .running ∧
    0x200 + (List.replicate 3584 (0 : Byte)).length ≤ 4096 ∧ 4096 < 0x200 + (List.replicate 3585 (0 : Byte)).length := by
  exact ⟨by decide, by rw [List.length_replicate], by rw [List.length_replicate]; decide⟩

/-- With FONT_BASE = 0x050 there are addresses below and above the font table. -/
theorem witness_ResetLeavesResetValues : 0x04F < 4096 ∧ 0x04F < (0x050 : Fin 433).val ∧ (0x050 : Fin 433).val + 80 ≤ 0x0A0 := by
  decide

theorem witness_StepKeepsInvariants : State.reset.MemoryCanonical ∧ State.reset.AddressesInRange ∧
    State.reset.TimersAtZero ∧ ∃ t, step State.reset = .next t := by
  refine ⟨Memory.wf_nil _, ⟨by decide, by decide, ?_⟩, ⟨by decide, by decide⟩, _, rfl⟩
  intro k
  simp [State.slot, State.reset, State.resetWith]

/-- A state with a listed byte is canonical too. -/
theorem witness_canonical_nonempty : (startWith 0x300 [] 0x300 [7]).MemoryCanonical := by
  show Memory.wf _ _
  decide

end Sys2Proof.Tests
end

section
/-! The Memory controller's writes (20_memory.md R52, R55): a write of a run of bytes as one operation, and the two
obligations about it. -/

namespace Sys2Proof.Machine

/-! ### A write of a run of bytes -/

/-- A multi-byte write succeeds where its range is inside memory. -/
theorem State.memWrite_of_le (s : State) {a : Nat} {bytes : List Byte} (h : a + bytes.length ≤ memSize) :
    s.memWrite a bytes = .ok { s with mem := Memory.writeBytes s.config s.mem a bytes } := by
  unfold State.memWrite; exact if_pos h

/-- The frame of a multi-byte write: nothing but memory changes, and no byte outside the range written. The predicate
`P` may hold of more addresses than the range. -/
theorem State.onlyTouches_memWrite {s t : State} {a : Nat} {bytes : List Byte} {P : Nat → Prop}
    (h : s.memWrite a bytes = .ok t) (hP : ∀ q, a ≤ q → q < a + bytes.length → P q) :
    OnlyTouches { byte := P } s t := by
  have hread : ∀ q, ¬ P q → t.readByte q = s.readByte q := by
    intro q hq
    rw [State.readByte_memWrite h, dif_neg]
    rintro ⟨hlo, hhi⟩
    exact hq (hP q hlo (by omega))
  obtain ⟨-, rfl⟩ := State.memWrite_ok h
  exact ⟨fun _ _ => rfl, fun _ => rfl, fun _ _ => rfl, fun _ => rfl, hread, fun _ _ _ => rfl, rfl, rfl, rfl, rfl, rfl⟩

/-- A multi-byte write does not move the program counter, which `OnlyTouches` leaves free. -/
theorem State.memWrite_pc {s t : State} {a : Nat} {bytes : List Byte} (h : s.memWrite a bytes = .ok t) :
    t.pc = s.pc := by
  obtain ⟨-, rfl⟩ := State.memWrite_ok h
  rfl

/-- A run of bytes read back from memory after it was written. -/
theorem Memory.readBytes_writeBytes (c : Config) (m : Memory) (a : Nat) (bytes : List Byte) :
    Memory.readBytes c (Memory.writeBytes c m a bytes) a bytes.length = bytes := by
  refine List.ext_getElem (Memory.readBytes_length ..) fun i _ hi => ?_
  rw [Memory.readBytes_getElem, Memory.byteAt_writeBytes, dif_pos ⟨by omega, by omega⟩]
  simp only [Nat.add_sub_cancel_left]

/-- A slice read of the range just written gives the bytes back. -/
theorem State.readSlice_memWrite {s t : State} {a : Nat} {bytes : List Byte} (h : s.memWrite a bytes = .ok t) :
    t.readSlice a bytes.length = .ok bytes := by
  obtain ⟨hb, rfl⟩ := State.memWrite_ok h
  unfold State.readSlice
  rw [if_pos hb, Memory.readBytes_writeBytes]

/-! ### The controller's two writes as such a write -/

/-- `write_byte` is the write of a run of one byte, so the laws of `memWrite` speak of it. -/
theorem State.writeByte_eq_memWrite (s : State) (a : Nat) (b : Byte) : s.writeByte a b = s.memWrite a [b] := rfl

theorem State.load_eq_memWrite (s : State) (buffer : List Byte) (a : Nat) : s.load buffer a = s.memWrite a buffer := rfl

/-! ### The obligations -/

/-- Settles O34: `write_byte` is a write of one byte, whose range is that address alone. -/
theorem writeByteSetsOneByte : Obligations.WriteByteSetsOneByte := by
  intro s a b
  rw [State.writeByte_eq_memWrite]
  constructor
  · intro ha
    have hw := s.memWrite_of_le (a := a) (bytes := [b]) (by simp only [List.length_singleton, memSize]; omega)
    refine ⟨_, hw, ?_, State.memWrite_pc hw, State.onlyTouches_memWrite hw fun q hlo hhi => ?_⟩
    · rw [State.readByte_memWrite hw, dif_pos ⟨le_rfl, by simp⟩]
      simp
    · rw [List.length_singleton] at hhi
      omega
  · intro ha
    exact State.memWrite_error (by simp only [List.length_singleton, memSize]; omega)

/-- Settles O36: `load` is the write of its buffer; the slice read back and the frame are those of the write. -/
theorem loadThenReadSliceRoundTrip : Obligations.LoadThenReadSliceRoundTrip := by
  intro s buffer a
  rw [State.load_eq_memWrite]
  constructor
  · intro hfit
    have hw := s.memWrite_of_le (bytes := buffer) hfit
    exact ⟨_, hw, State.readSlice_memWrite hw, State.memWrite_pc hw,
      State.onlyTouches_memWrite hw fun _ hlo hhi => ⟨hlo, hhi⟩⟩
  · intro hlong
    exact State.memWrite_error (Nat.not_le.2 hlong)

end Sys2Proof.Machine
end

section
/-! The transfers that cannot fault, JP and SE (41_control_flow.md R130, R134): the frame of a move of `pc`, the operand
fields as the numbers the statements write, and the two obligations. -/

namespace Sys2Proof.Machine

/-! ### The frame of a move of the program counter -/

theorem OnlyTouches.refl (w : Touches) (s : State) : OnlyTouches w s s :=
  ⟨fun _ _ => rfl, fun _ => rfl, fun _ _ => rfl, fun _ => rfl, fun _ _ => rfl, fun _ _ _ => rfl, rfl, rfl, rfl, rfl, rfl⟩

/-- A frame leaves `pc` free, so it outlasts a move of `pc`: each clause reads a field that `setPc` keeps. -/
theorem OnlyTouches.setPc {w : Touches} {s t : State} (h : OnlyTouches w s t) (target : Word) :
    OnlyTouches w s (t.setPc target) := h

/-! ### The operand fields as numbers of the whole word -/

theorem fieldX_eq_ofNat (w : Word) : fieldX w = Fin.ofNat 16 (w.toNat / 256) :=
  Fin.ext (fieldX_val w)

theorem fieldKk_eq_ofNat (w : Word) : fieldKk w = BitVec.ofNat 8 w.toNat :=
  Laws.HasRow.fieldKk_eq (by rw [BitVec.toNat_ofNat])

theorem fieldNnn_eq_ofNat (w : Word) : fieldNnn w = BitVec.ofNat 16 (w.toNat % 4096) :=
  Laws.HasRow.fieldNnn_eq (by rw [BitVec.toNat_ofNat]; omega)

/-! ### The words of JP and SE

A word with a nonzero first nibble is neither of the table's two whole-word rows, which come first. -/

theorem decodeWord_jp {w : Word} (h : w.toNat / 4096 = 1) : decodeWord w = some (.jp (fieldNnn w)) := by
  rw [decodeWord_chain, if_neg (by omega), if_neg (by omega), if_pos h]

theorem decodeWord_se {w : Word} (h : w.toNat / 4096 = 3) : decodeWord w = some (.se (fieldX w) (fieldKk w)) := by
  rw [decodeWord_chain, if_neg (by omega), if_neg (by omega), if_neg (by omega), if_neg (by omega), if_pos h]

/-! ### The meanings of JP and SE as one move of the program counter -/

theorem exec_jp (nnn : Word) (s : State) : exec (.jp nnn) s = .next (s.setPc nnn) := rfl

/-- SE chooses between two targets; whichever it takes, its one effect is a move of `pc`. -/
theorem exec_se (x : Reg) (kk : Byte) (s : State) :
    exec (.se x kk) s = .next (s.setPc (if s.reg x = kk then s.pc + 4 else s.pc + 2)) :=
  congrArg Host.Outcome.next (apply_ite s.setPc (s.reg x = kk) (s.pc + 4) (s.pc + 2)).symm

/-! ### The obligations -/

/-- Settles O1: JP is a move of `pc` to its immediate, which is the word's low twelve bits. -/
theorem jpSetsPcToImmediate : Obligations.JpSetsPcToImmediate := by
  constructor
  · intro nnn s
    exact ⟨_, exec_jp nnn s, State.setPc_pc .., (OnlyTouches.refl _ s).setPc nnn⟩
  · intro w hw
    rw [decodeWord_jp hw, fieldNnn_eq_ofNat]

/-- Settles O4: SE is a move of `pc`, past one instruction or two as `V[x] = kk` decides. -/
theorem seSkipsExactlyOnEqual : Obligations.SeSkipsExactlyOnEqual := by
  constructor
  · intro x kk s
    exact ⟨_, exec_se x kk s, State.setPc_pc .., (OnlyTouches.refl _ s).setPc _⟩
  · intro w hw
    rw [decodeWord_se hw, fieldX_eq_ofNat, fieldKk_eq_ofNat]

end Sys2Proof.Machine
end

section
/-! The register operations that cannot fault, LDK, ADDK, MOV and LDI (42_register_ops.md R140 to R143): the frame of a
write of one register, the instructions' words, and the four obligations. -/

namespace Sys2Proof.Machine

/-! ### The frame of a register write -/

/-- A write of `V[x]` leaves the other registers as they were, by index, and touches no other field. -/
theorem State.onlyTouches_setReg (s : State) (x : Reg) (b : Byte) :
    OnlyTouches { reg := fun r => r = x } s (s.setReg x b) :=
  ⟨fun r hr => s.reg_setReg_ne x r b hr, fun _ => rfl, fun _ _ => rfl, fun _ => rfl, fun _ _ => rfl, fun _ _ _ => rfl,
    rfl, rfl, rfl, rfl, rfl⟩

theorem State.onlyTouches_setI (s : State) (a : Word) : OnlyTouches { I := True } s (s.setI a) :=
  ⟨fun _ _ => rfl, fun hI => absurd trivial hI, fun _ _ => rfl, fun _ => rfl, fun _ _ => rfl, fun _ _ _ => rfl,
    rfl, rfl, rfl, rfl, rfl⟩

theorem OnlyTouches.advance {w : Touches} {s t : State} (h : OnlyTouches w s t) : OnlyTouches w s t.advance :=
  h.setPc _

/-! ### The meanings as one register write and an advance -/

theorem exec_ldk (x : Reg) (kk : Byte) (s : State) : exec (.ldk x kk) s = .next (s.setReg x kk).advance := rfl

theorem exec_addk (x : Reg) (kk : Byte) (s : State) :
    exec (.addk x kk) s = .next (s.setReg x (addByte (s.reg x) kk)).advance := rfl

theorem exec_mov (x y : Reg) (s : State) : exec (.mov x y) s = .next (s.setReg x (s.reg y)).advance := rfl

theorem exec_ldi (nnn : Word) (s : State) : exec (.ldi nnn) s = .next (s.setI nnn).advance := rfl

/-- Completion of an instruction whose meaning is a write of `V[x]`: what LDK, ADDK and MOV have in common. -/
theorem completes_of_exec_eq_setReg {i : Instr} {s : State} {x : Reg} {b : Byte}
    (h : exec i s = .next (s.setReg x b).advance) :
    ∃ t, exec i s = .next t ∧ t.reg x = b ∧ t.pc = s.pc + 2 ∧ OnlyTouches { reg := fun r => r = x } s t :=
  ⟨_, h, s.reg_setReg_same x b, rfl, (s.onlyTouches_setReg x b).advance⟩

/-- The sum of ADDK is reduced once: the byte that holds it reduces it no further. -/
theorem addByte_toNat (a b : Byte) : (addByte a b).toNat = (a.toNat + b.toNat) % 256 :=
  Nat.mod_mod _ 256

/-! ### The words of the four instructions -/

theorem fieldY_eq_ofNat (w : Word) : fieldY w = Fin.ofNat 16 (w.toNat / 16) :=
  Fin.ext (fieldY_val w)

/-- A word with a nonzero first nibble is neither CLS nor RET, the two rows that compare the whole word. -/
theorem toNat_ne_cls_ret {w : Word} {k : Nat} (h : w.toNat / 4096 = k) (hk : k ≠ 0) :
    w.toNat ≠ 0x00E0 ∧ w.toNat ≠ 0x00EE := by
  omega

theorem decodeWord_ldk {w : Word} (h : w.toNat / 4096 = 6) : decodeWord w = some (.ldk (fieldX w) (fieldKk w)) := by
  simp [decodeWord_chain, toNat_ne_cls_ret h, h]

theorem decodeWord_addk {w : Word} (h : w.toNat / 4096 = 7) : decodeWord w = some (.addk (fieldX w) (fieldKk w)) := by
  simp [decodeWord_chain, toNat_ne_cls_ret h, h]

/-- The low nibble of a MOV word is not looked at (30_encoding.md R87). -/
theorem decodeWord_mov {w : Word} (h : w.toNat / 4096 = 8) : decodeWord w = some (.mov (fieldX w) (fieldY w)) := by
  simp [decodeWord_chain, toNat_ne_cls_ret h, h]

theorem decodeWord_ldi {w : Word} (h : w.toNat / 4096 = 10) : decodeWord w = some (.ldi (fieldNnn w)) := by
  simp [decodeWord_chain, toNat_ne_cls_ret h, h]

/-! ### The obligations -/

/-- Settles O5: LDK is a write of its immediate. -/
theorem ldkLoadsImmediate : Obligations.LdkLoadsImmediate := by
  constructor
  · intro x kk s
    exact completes_of_exec_eq_setReg (exec_ldk x kk s)
  · intro w hw
    rw [decodeWord_ldk hw, fieldX_eq_ofNat, fieldKk_eq_ofNat]

/-- Settles O6: ADDK is a write of the wrapped sum to `V[x]`, so the frame of that write covers `V[15]`. -/
theorem addkWrapsWithoutFlag : Obligations.AddkWrapsWithoutFlag := by
  constructor
  · intro x kk s
    obtain ⟨t, hnext, hreg, hpc, hframe⟩ := completes_of_exec_eq_setReg (exec_addk x kk s)
    exact ⟨t, hnext, by rw [hreg, addByte_toNat], hpc, hframe⟩
  · intro w hw
    rw [decodeWord_addk hw, fieldX_eq_ofNat, fieldKk_eq_ofNat]

/-- Settles O7: MOV is a write of the old `V[y]`; its decoding reads the second and third nibbles only. -/
theorem movCopiesRegister : Obligations.MovCopiesRegister := by
  constructor
  · intro x y s
    exact completes_of_exec_eq_setReg (exec_mov x y s)
  · intro w hw
    rw [decodeWord_mov hw, fieldX_eq_ofNat, fieldY_eq_ofNat]

/-- Settles O8: LDI is a write of `I`, of the word's low twelve bits. -/
theorem ldiLoadsAddressRegister : Obligations.LdiLoadsAddressRegister := by
  constructor
  · intro nnn s
    exact ⟨_, exec_ldi nnn s, rfl, rfl, (s.onlyTouches_setI nnn).advance⟩
  · intro w hw
    rw [decodeWord_ldi hw, fieldNnn_eq_ofNat]

end Sys2Proof.Machine
end

section
/-! The Display (43_display.md R151 to R158): a whole draw in the statements' words, by what it flips, and two
draws by that; sprites of zero rows; origins that wrap; CLS; and the three obligations. -/

namespace Sys2Proof.Machine

/-! ### A whole draw, pixel by pixel -/

/-- The pixels a draw changes are those under 1 bits of the sprite: no pixel is visited twice (R155). -/
theorem Framebuffer.pixel_draw_ne_iff (fb : Framebuffer) {sprite : List Byte} (ox oy : Nat)
    (hlen : sprite.length ≤ 32) (y : Fin 32) (x : Fin 64) :
    (fb.draw sprite ox oy).1.pixel y x ≠ fb.pixel y x ↔ SpriteFlips sprite ox oy y x := by
  rw [Framebuffer.draw, (drawRows_spec ox oy 0 sprite (fb, false) (by omega)).1]
  simp only [SpriteFlips, Fin.ext_iff, Fin.val_ofNat, Nat.zero_add, ← exists_and_left, and_left_comm]

theorem Framebuffer.pixel_draw_of_flips (fb : Framebuffer) {sprite : List Byte} {ox oy : Nat}
    (hlen : sprite.length ≤ 32) {y : Fin 32} {x : Fin 64} (h : SpriteFlips sprite ox oy y x) :
    (fb.draw sprite ox oy).1.pixel y x = !fb.pixel y x :=
  Bool.eq_not.2 ((fb.pixel_draw_ne_iff ox oy hlen y x).2 h)

theorem Framebuffer.pixel_draw_of_not_flips (fb : Framebuffer) {sprite : List Byte} {ox oy : Nat}
    (hlen : sprite.length ≤ 32) {y : Fin 32} {x : Fin 64} (h : ¬ SpriteFlips sprite ox oy y x) :
    (fb.draw sprite ox oy).1.pixel y x = fb.pixel y x :=
  not_not.1 fun hne => h ((fb.pixel_draw_ne_iff ox oy hlen y x).1 hne)

/-- A draw collides exactly when a 1 bit of its sprite falls on a pixel that was on before it. -/
theorem Framebuffer.draw_collides_iff (fb : Framebuffer) {sprite : List Byte} (ox oy : Nat)
    (hlen : sprite.length ≤ 32) :
    (fb.draw sprite ox oy).2 = true ↔ ∃ y x, SpriteFlips sprite ox oy y x ∧ fb.pixel y x = true := by
  rw [Framebuffer.draw, (drawRows_spec ox oy 0 sprite (fb, false) (by omega)).2]
  simp only [Bool.false_eq_true, false_or, Nat.zero_add]
  constructor
  · rintro ⟨i, hi, b, hb, hbit, hon⟩
    exact ⟨_, _, ⟨i, hi, b, hb, rfl, rfl, hbit⟩, hon⟩
  · rintro ⟨y, x, ⟨i, hi, b, hb, hy, hx, hbit⟩, hon⟩
    obtain rfl : y = Fin.ofNat 32 (oy + i) := Fin.ext hy
    obtain rfl : x = Fin.ofNat 64 (ox + b) := Fin.ext hx
    exact ⟨i, hi, b, hb, hbit, hon⟩

/-- A pixel of value `v` under a 1 bit is the same as a pixel that the draw takes from `v` to the other value. -/
theorem Framebuffer.flips_and_pixel_iff (fb : Framebuffer) {sprite : List Byte} {ox oy : Nat}
    (hlen : sprite.length ≤ 32) (v : Bool) (y : Fin 32) (x : Fin 64) :
    SpriteFlips sprite ox oy y x ∧ fb.pixel y x = v ↔
      fb.pixel y x = v ∧ (fb.draw sprite ox oy).1.pixel y x = !v := by
  rw [← fb.pixel_draw_ne_iff ox oy hlen, and_comm]
  refine and_congr_right fun hv => ?_
  rw [hv, Bool.eq_not]

/-! ### Two draws -/

theorem Framebuffer.pixel_draw_draw (fb : Framebuffer) {s₁ s₂ : List Byte} {x₁ y₁ x₂ y₂ : Nat} {y : Fin 32} {x : Fin 64}
    (hlen₁ : s₁.length ≤ 32) (hlen₂ : s₂.length ≤ 32)
    (h₁ : SpriteFlips s₁ x₁ y₁ y x) (h₂ : SpriteFlips s₂ x₂ y₂ y x) :
    ((fb.draw s₁ x₁ y₁).1.draw s₂ x₂ y₂).1.pixel y x = fb.pixel y x := by
  rw [Framebuffer.pixel_draw_of_flips _ hlen₂ h₂, Framebuffer.pixel_draw_of_flips _ hlen₁ h₁, Bool.not_not]

/-- A draw is its own inverse (R158 (a)). -/
theorem Framebuffer.draw_draw_self (fb : Framebuffer) {sprite : List Byte} (ox oy : Nat) (hlen : sprite.length ≤ 32) :
    ((fb.draw sprite ox oy).1.draw sprite ox oy).1 = fb := by
  refine Framebuffer.ext_pixel fun y x => ?_
  by_cases h : SpriteFlips sprite ox oy y x
  · exact fb.pixel_draw_draw hlen hlen h h
  · rw [Framebuffer.pixel_draw_of_not_flips _ hlen h, Framebuffer.pixel_draw_of_not_flips _ hlen h]

/-- The second of two equal draws collides where the first turned a pixel on (R158 (a)). -/
theorem Framebuffer.draw_draw_collides_iff (fb : Framebuffer) {sprite : List Byte} (ox oy : Nat)
    (hlen : sprite.length ≤ 32) :
    ((fb.draw sprite ox oy).1.draw sprite ox oy).2 = true ↔
      ∃ y x, fb.pixel y x = false ∧ (fb.draw sprite ox oy).1.pixel y x = true := by
  rw [Framebuffer.draw_collides_iff _ ox oy hlen]
  refine exists₂_congr fun y x => ?_
  rw [Framebuffer.flips_and_pixel_iff _ hlen, fb.draw_draw_self ox oy hlen, and_comm, Bool.not_true]

/-! ### Sprites of zero rows

Of any length: beyond 32 rows a pixel is visited again, so these go bit by bit and not by what the whole draw flips. -/

theorem drawBit_zero (py : Fin 32) (ox b : Nat) (d : Drawing) : drawBit 0 py ox b d = d := by
  refine Prod.ext (Framebuffer.ext_pixel fun y x => ?_) ?_
  · simp [drawBit_pixel]
  · simp [drawBit_collision]

theorem drawRow_zero (py : Fin 32) (ox : Nat) (d : Drawing) : drawRow 0 py ox d = d := by
  simp only [drawRow, drawBit_zero, List.foldl_fixed]

theorem drawRows_replicate_zero (ox oy i n : Nat) (d : Drawing) : drawRows ox oy i (List.replicate n 0) d = d := by
  induction n generalizing i with
  | zero => rfl
  | succ n ih => rw [List.replicate_succ, drawRows, drawRow_zero, ih]

/-! ### Origins modulo 64 and 32 -/

theorem drawRow_mod (row : Byte) (py : Fin 32) (ox : Nat) (d : Drawing) :
    drawRow row py (ox % 64) d = drawRow row py ox d := by
  have column : ∀ b, Fin.ofNat 64 (ox % 64 + b) = Fin.ofNat 64 (ox + b) := fun b => Fin.ext (Nat.mod_add_mod ox 64 b)
  simp only [drawRow, drawBit, column]

theorem drawRows_mod (ox oy i : Nat) (sprite : List Byte) (d : Drawing) :
    drawRows (ox % 64) (oy % 32) i sprite d = drawRows ox oy i sprite d := by
  induction sprite generalizing i d with
  | nil => rfl
  | cons row rest ih =>
    have line : Fin.ofNat 32 (oy % 32 + i) = Fin.ofNat 32 (oy + i) := Fin.ext (Nat.mod_add_mod oy 32 i)
    rw [drawRows, drawRows, drawRow_mod, line, ih]

/-! ### CLS -/

theorem exec_cls (s : State) : exec .cls s = .next { s with fb := Framebuffer.allOff }.advance := rfl

theorem State.onlyTouches_setFb (s : State) (fb : Framebuffer) :
    OnlyTouches { pixel := fun _ _ => True } s { s with fb := fb } :=
  ⟨fun _ _ => rfl, fun _ => rfl, fun _ _ => rfl, fun _ => rfl, fun _ _ => rfl, fun _ _ h => absurd trivial h,
    rfl, rfl, rfl, rfl, rfl⟩

/-- The word of CLS is the first row of the table, which compares all sixteen bits. -/
theorem decodeWord_cls : decodeWord 0x00E0 = some .cls := by
  rw [decodeWord_chain, if_pos (by decide)]

/-! ### The obligations -/

/-- Settles O37: a draw collides exactly when a 1 bit falls on a lit pixel, and such a pixel is one that goes off. -/
theorem collisionIffLitPixelHit : Obligations.CollisionIffLitPixelHit := by
  intro fb sprite ox oy hlen
  refine ⟨?_, fb.draw_collides_iff ox oy hlen⟩
  rw [fb.draw_collides_iff ox oy hlen]
  exact exists₂_congr fun y x => fb.flips_and_pixel_iff hlen true y x

/-- Settles O38: for sprites of at most 32 rows by what a draw flips, and for zero rows and for origins row by row. -/
theorem drawLaws : Obligations.DrawLaws := by
  refine ⟨?selfInverse, ?zeroRows, ?origins, ?overlap⟩
  case selfInverse =>
    intro fb sprite ox oy hlen
    exact ⟨fb.draw_draw_self ox oy hlen, fb.draw_draw_collides_iff ox oy hlen⟩
  case zeroRows =>
    intro fb n ox oy
    exact drawRows_replicate_zero ox oy 0 n (fb, false)
  case origins =>
    intro fb sprite ox oy
    exact (drawRows_mod ox oy 0 sprite (fb, false)).symm
  case overlap =>
    intro fb s1 x1 y1 s2 x2 y2 py px hlen1 hlen2 h1 h2
    exact fb.pixel_draw_draw hlen1 hlen2 h1 h2

/-- Settles O10: CLS replaces the framebuffer by the dark one and advances. -/
theorem clsTurnsEveryPixelOff : Obligations.ClsTurnsEveryPixelOff := by
  constructor
  · intro s
    exact ⟨_, exec_cls s, Framebuffer.pixel_allOff, rfl, (s.onlyTouches_setFb _).advance⟩
  · exact decodeWord_cls

end Sys2Proof.Machine
end

section
/-! The timer tick (60_exceptions.md R195): no instruction writes a timer, so a completing step changes the timers by
the tick at its end alone; and the obligation. -/

namespace Sys2Proof.Machine

/-! ### What leaves the timers alone -/

/-- `t` has the timers of `s`. -/
def SameTimers (s t : State) : Prop := t.DT = s.DT ∧ t.ST = s.ST

/-- A move of `pc`, the last effect of every instruction, keeps the timers. -/
theorem SameTimers.setPc {s t : State} (h : SameTimers s t) (target : Word) : SameTimers s (t.setPc target) := h

theorem State.push_sameTimers {s t : State} {a : Word} (h : s.push a = .ok t) : SameTimers s t := by
  unfold State.push at h
  split_ifs at h
  cases h
  exact ⟨rfl, rfl⟩

theorem State.pop_sameTimers {s : State} {popped : Word × State} (h : s.pop = .ok popped) :
    SameTimers s popped.2 := by
  unfold State.pop at h
  split_ifs at h
  cases h
  exact ⟨rfl, rfl⟩

theorem State.memWrite_sameTimers {s t : State} {a : Nat} {bytes : List Byte} (h : s.memWrite a bytes = .ok t) :
    SameTimers s t := by
  obtain ⟨-, rfl⟩ := State.memWrite_ok h
  exact ⟨rfl, rfl⟩

theorem State.setRegsFrom_sameTimers (s : State) (k : Nat) (bytes : List Byte) :
    SameTimers s (s.setRegsFrom k bytes) := by
  rw [s.setRegsFrom_eq]
  exact ⟨rfl, rfl⟩

/-- An instruction that can fault keeps the timers if its effect does where it succeeds: fault entry keeps them. -/
theorem State.settle_map_sameTimers {α : Type} {s t : State} {r : Except FaultKind α} {f : α → State}
    (h : s.settle (r.map f) = .next t) (hf : ∀ a, r = .ok a → SameTimers s (f a)) : SameTimers s t := by
  cases r with
  | ok a => cases h; exact hf a rfl
  | error k => cases h; exact ⟨rfl, rfl⟩

/-- No instruction writes a timer, whether it succeeds or faults: neither stands in the table of 10_state.md R24. -/
theorem exec_sameTimers {i : Instr} {s t : State} (h : exec i s = .next t) : SameTimers s t := by
  cases i with
  | cls | ldk | addk | mov | ldi | jp => cases h; exact ⟨rfl, rfl⟩
  | se x kk => rw [exec_se] at h; cases h; exact ⟨rfl, rfl⟩
  | call nnn => exact State.settle_map_sameTimers h fun _ hpush => (State.push_sameTimers hpush).setPc _
  | ret => exact State.settle_map_sameTimers h fun _ hpop => (State.pop_sameTimers hpop).setPc _
  | ldf x => exact State.settle_map_sameTimers h fun _ _ => ⟨rfl, rfl⟩
  | drw x y n => exact State.settle_map_sameTimers h fun _ _ => ⟨rfl, rfl⟩
  | bcd x => exact State.settle_map_sameTimers h fun _ hwrite => (State.memWrite_sameTimers hwrite).setPc _
  | stm x => exact State.settle_map_sameTimers h fun _ hwrite => (State.memWrite_sameTimers hwrite).setPc _
  | ldm x => exact State.settle_map_sameTimers h fun bytes _ => (s.setRegsFrom_sameTimers 0 bytes).setPc _

/-! ### A completing step -/

/-- A Faulted state has no step (40_step_cycle.md R117). -/
theorem running_of_step_next {s t : State} (h : step s = .next t) : s.status = .running := by
  cases hs : s.status with
  | running => rfl
  | faulted k => simp [step, hs] at h

/-- A completing step is the execution of one decoded instruction, which did not fault, and the tick
(40_step_cycle.md R115). -/
theorem StepCompletes.exec_then_tick {s t : State} (h : StepCompletes s t) :
    ∃ i u, exec i s = .next u ∧ t = u.tick := by
  obtain ⟨hstep, hrun⟩ := h
  have hs := running_of_step_next hstep
  obtain ⟨k, -, rfl⟩ | ⟨w, -, -, rfl⟩ | ⟨w, i, u, -, -, hexec, rfl⟩ := step_cases hs hstep
  · cases hrun
  · cases hrun
  · rw [State.finishStep_status] at hrun
    exact ⟨i, u, hexec, State.finishStep_running hrun⟩

/-- Settles O25: the instruction keeps both timers, so the tick takes each down from its value before the step. -/
theorem completingStepTicksTimers : Obligations.CompletingStepTicksTimers := by
  intro s t h
  obtain ⟨i, u, hexec, rfl⟩ := h.exec_then_tick
  obtain ⟨hDT, hST⟩ := exec_sameTimers hexec
  rw [State.tick_DT, State.tick_ST, tickTimer_toNat, tickTimer_toNat, hDT, hST]
  exact ⟨rfl, rfl⟩

end Sys2Proof.Machine
end

section
/-! Decoding and encoding (30_encoding.md R80 to R95): a word selects at most one row of the table, so the row an
instruction was encoded from is the row its word decodes by; the words that decode to nothing; and the obligations. -/

namespace Sys2Proof.Machine

/-! ### The rows of the table exclude one another -/

/-- Two rows ask for different values of some bit that both of them look at. -/
theorem rows_conflict : ∀ j k : Fin opcodeTable.length, j ≠ k →
    opcodeTable[j].fixedBits &&& opcodeTable[k].mask ≠ opcodeTable[k].fixedBits &&& opcodeTable[j].mask := by
  decide

theorem rowIndex_eq_of_selects {w : Word} {j k : Fin opcodeTable.length}
    (hj : opcodeTable[j].selects w = true) (hk : opcodeTable[k].selects w = true) : j = k := by
  have hj : w &&& opcodeTable[j].mask = opcodeTable[j].fixedBits := beq_iff_eq.1 hj
  have hk : w &&& opcodeTable[k].mask = opcodeTable[k].fixedBits := beq_iff_eq.1 hk
  by_contra hne
  refine rows_conflict j k hne ?_
  rw [← hj, ← hk, BitVec.and_assoc, BitVec.and_assoc, BitVec.and_comm opcodeTable[j].mask]

theorem row_eq_of_selects {w : Word} {q r : TableRow} (hq : q ∈ opcodeTable) (hr : r ∈ opcodeTable)
    (hqs : q.selects w = true) (hrs : r.selects w = true) : q = r := by
  obtain ⟨j, rfl⟩ := List.mem_iff_get.1 hq
  obtain ⟨k, rfl⟩ := List.mem_iff_get.1 hr
  rw [rowIndex_eq_of_selects (j := j) (k := k) hqs hrs]

/-- The scan finds the row a word selects, wherever it stands in the table. -/
theorem decodeWord_of_selects {w : Word} {r : TableRow} (hr : r ∈ opcodeTable) (hs : r.selects w = true) :
    decodeWord w = some (r.build w) := by
  unfold decodeWord
  cases hfind : opcodeTable.find? (fun q => q.selects w) with
  | none => exact absurd hs (List.find?_eq_none.1 hfind r hr)
  | some q =>
    have hfound : q.selects w = true := List.find?_some (p := fun r : TableRow => r.selects w) hfind
    rw [row_eq_of_selects (List.mem_of_find?_eq_some hfind) hr hfound hs, Option.map_some]

/-! ### The word of an instruction -/

/-- The family of the row lemmas, as one statement over all instructions. -/
theorem hasRow (i : Instr) : Laws.HasRow.Statement i := by
  cases i with
  | cls => exact Laws.HasRow.cls
  | ret => exact Laws.HasRow.ret
  | jp nnn => exact Laws.HasRow.jp nnn
  | call nnn => exact Laws.HasRow.call nnn
  | se x kk => exact Laws.HasRow.se x kk
  | ldk x kk => exact Laws.HasRow.ldk x kk
  | addk x kk => exact Laws.HasRow.addk x kk
  | mov x y => exact Laws.HasRow.mov x y
  | ldi nnn => exact Laws.HasRow.ldi nnn
  | drw x y n => exact Laws.HasRow.drw x y n
  | ldf x => exact Laws.HasRow.ldf x
  | bcd x => exact Laws.HasRow.bcd x
  | stm x => exact Laws.HasRow.stm x
  | ldm x => exact Laws.HasRow.ldm x

theorem decodeWord_encode {i : Instr} (h : i.WellFormed) : decodeWord (encode i) = some i := by
  obtain ⟨r, hr, hs, hb⟩ := hasRow i h
  rw [decodeWord_of_selects hr hs, hb]

/-! ### Bytes -/

/-- What the decoder reads from two bytes or more. -/
theorem decode_cons_cons_ok {hi lo : Byte} {rest : List Byte} {i : Instr}
    (h : decodeWord (wordOfBytes hi lo) = some i) : decode (hi :: lo :: rest) = .ok (i, rest) := by
  simp only [decode, h]

theorem decode_ok {bytes rest : List Byte} {i : Instr} (h : decode bytes = .ok (i, rest)) :
    ∃ hi lo, bytes = hi :: lo :: rest ∧ decodeWord (wordOfBytes hi lo) = some i := by
  match bytes with
  | [] => simp [decode] at h
  | [_] => simp [decode] at h
  | hi :: lo :: rest' =>
    cases hd : decodeWord (wordOfBytes hi lo) with
    | none => simp [decode, hd] at h
    | some j =>
      obtain ⟨rfl, rfl⟩ : j = i ∧ rest' = rest := by simpa [decode, hd] using h
      exact ⟨hi, lo, rfl, hd⟩

/-- The bytes of an instruction are its word's high byte and its low byte. -/
theorem encodeBytes_eq (i : Instr) : ∃ hi lo : Byte, encodeBytes i = [hi, lo] ∧
    hi.toNat = (encode i).toNat / 256 ∧ lo.toNat = (encode i).toNat % 256 := by
  have := (encode i).isLt
  refine ⟨_, _, rfl, ?_, ?_⟩
  · rw [BitVec.toNat_ofNat, bits]; omega
  · rw [BitVec.toNat_ofNat, bits]; omega

theorem decode_encodeBytes_append {i : Instr} (h : i.WellFormed) (rest : List Byte) :
    decode (encodeBytes i ++ rest) = .ok (i, rest) := by
  obtain ⟨hi, lo, hbytes, hhi, hlo⟩ := encodeBytes_eq i
  have hword : wordOfBytes hi lo = encode i := BitVec.eq_of_toNat_eq (by rw [wordOfBytes_toNat]; omega)
  rw [hbytes]
  exact decode_cons_cons_ok (by rw [hword, decodeWord_encode h])

/-! ### A word put together from its fields, format by format -/

theorem word_of_nnn {w : Word} {k : Nat} (h : w.toNat / 4096 = k) :
    BitVec.ofNat 16 (k * 4096 + (fieldNnn w).toNat) = w := by
  refine BitVec.eq_of_toNat_eq ?_
  have := w.isLt
  rw [BitVec.toNat_ofNat, fieldNnn_toNat]; omega

theorem word_of_xkk {w : Word} {k : Nat} (h : w.toNat / 4096 = k) :
    BitVec.ofNat 16 (k * 4096 + (fieldX w).val * 256 + (fieldKk w).toNat) = w := by
  refine BitVec.eq_of_toNat_eq ?_
  have := w.isLt
  rw [BitVec.toNat_ofNat, fieldX_val, fieldKk_toNat]; omega

theorem word_of_xyn {w : Word} {k : Nat} (h : w.toNat / 4096 = k) :
    BitVec.ofNat 16 (k * 4096 + (fieldX w).val * 256 + (fieldY w).val * 16 + fieldN w) = w := by
  refine BitVec.eq_of_toNat_eq ?_
  have := w.isLt
  rw [BitVec.toNat_ofNat, fieldX_val, fieldY_val, fieldN_eq]; omega

theorem word_of_fx {w : Word} {low : Nat} (h : w.toNat / 4096 = 15 ∧ w.toNat % 256 = low) :
    BitVec.ofNat 16 (15 * 4096 + low + (fieldX w).val * 256) = w := by
  refine BitVec.eq_of_toNat_eq ?_
  have := w.isLt
  rw [BitVec.toNat_ofNat, fieldX_val]; omega

/-- The rows of the table by the instruction they build: the words of each, and its operands as the word's fields. -/
def BuiltFrom (w : Word) : Instr → Prop
  | .cls => w.toNat = 0x00E0
  | .ret => w.toNat = 0x00EE
  | .jp nnn => w.toNat / 4096 = 1 ∧ nnn = fieldNnn w
  | .call nnn => w.toNat / 4096 = 2 ∧ nnn = fieldNnn w
  | .se x kk => w.toNat / 4096 = 3 ∧ x = fieldX w ∧ kk = fieldKk w
  | .ldk x kk => w.toNat / 4096 = 6 ∧ x = fieldX w ∧ kk = fieldKk w
  | .addk x kk => w.toNat / 4096 = 7 ∧ x = fieldX w ∧ kk = fieldKk w
  | .mov x y => w.toNat / 4096 = 8 ∧ x = fieldX w ∧ y = fieldY w
  | .ldi nnn => w.toNat / 4096 = 10 ∧ nnn = fieldNnn w
  | .drw x y n => w.toNat / 4096 = 13 ∧ x = fieldX w ∧ y = fieldY w ∧ n = fieldN w
  | .ldf x => (w.toNat / 4096 = 15 ∧ w.toNat % 256 = 0x29) ∧ x = fieldX w
  | .bcd x => (w.toNat / 4096 = 15 ∧ w.toNat % 256 = 0x33) ∧ x = fieldX w
  | .stm x => (w.toNat / 4096 = 15 ∧ w.toNat % 256 = 0x55) ∧ x = fieldX w
  | .ldm x => (w.toNat / 4096 = 15 ∧ w.toNat % 256 = 0x65) ∧ x = fieldX w

theorem builtFrom_of_decodeWord {w : Word} {i : Instr} (h : decodeWord w = some i) : BuiltFrom w i := by
  have h := decodeWord_some h
  cases i <;> simpa [BuiltFrom] using h

/-- Encoding gives back every word that decodes, but for the MOV words (30_encoding.md R95). -/
theorem encode_of_decodeWord {w : Word} {i : Instr} (h : decodeWord w = some i) (hmov : w.toNat / 4096 ≠ 8) :
    encode i = w := by
  have h := builtFrom_of_decodeWord h
  cases i with
  | cls | ret => exact BitVec.eq_of_toNat_eq (Eq.symm h)
  | jp nnn | call nnn | ldi nnn => obtain ⟨hw, rfl⟩ := h; exact word_of_nnn hw
  | se x kk | ldk x kk | addk x kk => obtain ⟨hw, rfl, rfl⟩ := h; exact word_of_xkk hw
  | mov x y => exact absurd h.1 hmov
  | drw x y n => obtain ⟨hw, rfl, rfl, rfl⟩ := h; exact word_of_xyn hw
  | ldf x | bcd x | stm x | ldm x => obtain ⟨hw, rfl⟩ := h; exact word_of_fx hw

/-- A MOV word is encoded again with low nibble 0 (the spec's D11). -/
theorem encode_of_decodeWord_mov {w : Word} {i : Instr} (h : decodeWord w = some i) (hmov : w.toNat / 4096 = 8) :
    (encode i).toNat = w.toNat - w.toNat % 16 := by
  have hi : i = .mov (fieldX w) (fieldY w) := Option.some.inj (h.symm.trans (decodeWord_mov hmov))
  have := w.isLt
  rw [hi, encode, BitVec.toNat_ofNat, fieldX_val, fieldY_val]
  omega

theorem wellFormed_of_decodeWord {w : Word} {i : Instr} (h : decodeWord w = some i) : i.WellFormed := by
  have h := builtFrom_of_decodeWord h
  cases i with
  | jp nnn | call nnn | ldi nnn =>
    obtain ⟨-, rfl⟩ := h
    exact decide_eq_true (by rw [fieldNnn_toNat]; exact Nat.mod_lt _ (by decide))
  | drw x y n =>
    obtain ⟨-, -, -, rfl⟩ := h
    exact decide_eq_true (by rw [fieldN_eq]; exact Nat.mod_lt _ (by decide))
  | cls | ret | se | ldk | addk | mov | ldf | bcd | stm | ldm => rfl

/-! ### The obligations -/

/-- Settles O29: an instruction's word selects the row it was encoded from, and no other. -/
theorem decodeInvertsEncode : Obligations.DecodeInvertsEncode :=
  fun _ h rest => decode_encodeBytes_append h rest

/-- Settles O30: format by format a word is the sum of its fields, but for the nibble that MOV drops. -/
theorem encodeInvertsDecodeButMovNibble : Obligations.EncodeInvertsDecodeButMovNibble := by
  refine ⟨fun w i h => ?_, encodeBytes_eq⟩
  split_ifs with hmov
  · exact encode_of_decodeWord_mov h hmov
  · rw [encode_of_decodeWord h hmov]

/-- Settles O31: any two rows differ in a bit that both compare. -/
theorem noWordSelectsTwoRows : Obligations.NoWordSelectsTwoRows :=
  fun _ _ _ hj hk => rowIndex_eq_of_selects hj hk

/-- Settles O32: a word decodes to nothing when it is in no case of the scan. -/
theorem opcodeMapOfIllegalWords : Obligations.OpcodeMapOfIllegalWords := by
  intro w
  have hnibble : w.toNat / 4096 < 16 := by omega
  rw [decodeWord_chain]
  simp only [ite_some_eq_none, eq_self, and_true]
  by_cases hzero : w.toNat / 4096 = 0
  · simp [hzero]
  · have hpos := Nat.pos_of_ne_zero hzero
    simp only [toNat_ne_cls_ret rfl hzero, hzero, not_false_eq_true, true_and, false_and, false_or]
    generalize w.toNat / 4096 = nibble at hnibble hpos ⊢
    interval_cases nibble <;> simp

/-- Settles O33: the operands of a decoded instruction are fields of a word made of two bytes. -/
theorem decodedInstructionsAreWellFormed : Obligations.DecodedInstructionsAreWellFormed := by
  intro bytes i rest h
  obtain ⟨hi, lo, rfl, hword⟩ := decode_ok h
  exact ⟨wellFormed_of_decodeWord hword, rfl⟩

/-- Settles O28, whose words are written out: the decoder is evaluated on each. -/
theorem sampleWordsDecode : Obligations.SampleWordsDecode := by
  unfold Obligations.SampleWordsDecode
  decide

end Sys2Proof.Machine
end

section
/-! The instructions that can fault, CALL, RET, LDF, DRW, BCD, STM and LDM: one rule for their completion and one for
their fault, the frame of each effect, their words, and the obligations about single instructions. -/

namespace Sys2Proof.Machine

/-! ### An operation that can fail, settled -/

theorem State.settle_map_ok {α : Type} {s : State} {r : Except FaultKind α} {f : α → State} {a : α} (h : r = .ok a) :
    s.settle (r.map f) = .next (f a) := by
  rw [h]; rfl

theorem State.settle_map_error {α : Type} {s : State} {r : Except FaultKind α} {f : α → State} {k : FaultKind}
    (h : r = .error k) : s.settle (r.map f) = .next (s.takeFault k) := by
  rw [h]; rfl

theorem exec_call (nnn : Word) (s : State) :
    exec (.call nnn) s = s.settle ((s.push s.pc).map (fun t => t.setPc nnn)) := rfl

theorem exec_ret (s : State) : exec .ret s = s.settle (s.pop.map (fun popped => popped.2.setPc (popped.1 + 2))) := rfl

theorem exec_ldf (x : Reg) (s : State) :
    exec (.ldf x) s = s.settle ((s.glyphAddress (s.reg x)).map (fun a => (s.setI a).advance)) := rfl

theorem exec_drw (x y : Reg) (n : Nat) (s : State) : exec (.drw x y n) s =
    s.settle ((s.readSlice (s.effectiveAddress 0) n).map (fun sprite => (s.drawSprite x y sprite).advance)) := rfl

theorem exec_bcd (x : Reg) (s : State) : exec (.bcd x) s =
    s.settle ((s.memWrite (s.effectiveAddress 0) (decimalDigits (s.reg x))).map State.advance) := rfl

theorem exec_stm (x : Reg) (s : State) : exec (.stm x) s =
    s.settle ((s.memWrite (s.effectiveAddress 0) (s.regsUpTo x)).map State.advance) := rfl

theorem exec_ldm (x : Reg) (s : State) : exec (.ldm x) s = s.settle
    ((s.readSlice (s.effectiveAddress 0) (x.val + 1)).map (fun bytes => (s.setRegsFrom 0 bytes).advance)) := rfl

/-! ### When the operations succeed and fail -/

theorem State.readSlice_of_le (s : State) {a n : Nat} (h : a + n ≤ memSize) :
    s.readSlice a n = .ok (Memory.readBytes s.config s.mem a n) := by
  unfold State.readSlice; exact if_pos h

theorem State.readSlice_error (s : State) {a n : Nat} (h : ¬ a + n ≤ memSize) :
    s.readSlice a n = .error .memoryBounds := by
  unfold State.readSlice; exact if_neg h

theorem State.glyphAddress_of_le (s : State) {digit : Byte} (h : digit.toNat ≤ 15) :
    s.glyphAddress digit = .ok (BitVec.ofNat 16 (s.config.fontBase.val + 5 * digit.toNat)) := by
  unfold State.glyphAddress; exact if_neg (by omega)

theorem State.glyphAddress_error (s : State) {digit : Byte} (h : 15 < digit.toNat) :
    s.glyphAddress digit = .error .invalidDigit := by
  unfold State.glyphAddress; exact if_pos h

@[simp] theorem decimalDigits_length (v : Byte) : (decimalDigits v).length = 3 := rfl

/-! ### Frames of the effects -/

theorem State.onlyTouches_push {s t : State} {a : Word} (h : s.push a = .ok t) :
    OnlyTouches { slot := fun k => k.val = s.sp.val, sp := True } s t := by
  unfold State.push at h
  split_ifs at h with hsp
  cases h
  have hslot : ∀ k : Fin 16, k.val ≠ s.sp.val → (s.stack.set s.sp.val a hsp)[k.val] = s.stack[k.val] :=
    fun k hk => Vector.getElem_set_ne hsp k.isLt (Ne.symm hk)
  exact ⟨fun _ _ => rfl, fun _ => rfl, hslot, fun h => absurd trivial h, fun _ _ => rfl, fun _ _ _ => rfl,
    rfl, rfl, rfl, rfl, rfl⟩

theorem State.onlyTouches_pop {s : State} {popped : Word × State} (h : s.pop = .ok popped) :
    OnlyTouches { sp := True } s popped.2 := by
  unfold State.pop at h
  split_ifs at h
  cases h
  exact ⟨fun _ _ => rfl, fun _ => rfl, fun _ _ => rfl, fun h => absurd trivial h, fun _ _ => rfl, fun _ _ _ => rfl,
    rfl, rfl, rfl, rfl, rfl⟩

theorem State.onlyTouches_setRegsFrom (s : State) {x : Reg} {bytes : List Byte} (hlen : bytes.length = x.val + 1) :
    OnlyTouches { reg := fun r => r ≤ x } s (s.setRegsFrom 0 bytes) := by
  have hreg : ∀ r : Reg, ¬ r ≤ x → (s.setRegsFrom 0 bytes).reg r = s.reg r := by
    intro r hr
    rw [State.reg_setRegsFrom, dif_neg]
    rw [Fin.le_def] at hr
    omega
  refine ⟨hreg, ?_⟩
  rw [s.setRegsFrom_eq]
  exact ⟨fun _ => rfl, fun _ _ => rfl, fun _ => rfl, fun _ _ => rfl, fun _ _ _ => rfl, rfl, rfl, rfl, rfl, rfl⟩

theorem State.setRegsFrom_pc (s : State) (k : Nat) (bytes : List Byte) :
    (s.setRegsFrom k bytes).pc = s.pc := by
  rw [s.setRegsFrom_eq]

/-- Whatever the number of rows, a draw changes pixels under its rows alone. -/
theorem drawRows_pixel_ne {ox oy i : Nat} {sprite : List Byte} {d : Drawing} {y : Fin 32} {x : Fin 64}
    (h : (drawRows ox oy i sprite d).1.pixel y x ≠ d.1.pixel y x) :
    ∃ k, k < sprite.length ∧ ∃ b, b < 8 ∧ y.val = (oy + (i + k)) % 32 ∧ x.val = (ox + b) % 64 := by
  induction sprite generalizing i d with
  | nil => exact absurd rfl h
  | cons row rest ih =>
    rw [drawRows] at h
    by_cases hrow : (drawRow row (Fin.ofNat 32 (oy + i)) ox d).1.pixel y x = d.1.pixel y x
    · rw [← hrow] at h
      obtain ⟨k, hk, b, hb, hy, hx⟩ := ih h
      exact ⟨k + 1, by simpa using hk, b, hb, by rw [hy]; congr 1; omega, hx⟩
    · obtain ⟨rfl, b, hb, rfl, -⟩ := ((drawRow_spec row _ ox d).1 y x).1 hrow
      exact ⟨0, by simp, b, hb, rfl, rfl⟩

theorem Framebuffer.pixel_draw_of_not_inSpriteArea (fb : Framebuffer) {sprite : List Byte} {ox oy : Nat} {y : Fin 32}
    {x : Fin 64} (h : ¬ InSpriteArea ox oy sprite.length y x) : (fb.draw sprite ox oy).1.pixel y x = fb.pixel y x := by
  by_contra hne
  obtain ⟨k, hk, b, hb, hy, hx⟩ := drawRows_pixel_ne hne
  exact h ⟨k, hk, b, hb, by rw [hy, Nat.zero_add], hx⟩

theorem State.onlyTouches_drawSprite (s : State) (x y : Reg) (sprite : List Byte) :
    OnlyTouches { reg := fun r => r = 15, pixel := InSpriteArea (s.reg x).toNat (s.reg y).toNat sprite.length } s
      (s.drawSprite x y sprite) :=
  ⟨fun r hr => State.reg_setReg_ne _ 15 r _ hr, fun _ => rfl, fun _ _ => rfl, fun _ => rfl, fun _ _ => rfl,
    fun _ _ h => s.fb.pixel_draw_of_not_inSpriteArea h, rfl, rfl, rfl, rfl, rfl⟩

/-! ### Completion -/

theorem call_completes (nnn : Word) {s : State} (h : s.sp.val < 16) : ∃ t, exec (.call nnn) s = .next t ∧
    t.slot ⟨s.sp.val, h⟩ = s.pc ∧ t.sp.val = s.sp.val + 1 ∧ t.pc = nnn ∧
    OnlyTouches { slot := fun k => k.val = s.sp.val, sp := True } s t := by
  have hpush := State.push_of_lt s.pc h
  rw [exec_call, State.settle_map_ok hpush]
  exact ⟨_, rfl, Vector.getElem_set_self h, rfl, rfl, (State.onlyTouches_push hpush).setPc nnn⟩

theorem ret_completes {s : State} (h : 0 < s.sp.val) : ∃ t, exec .ret s = .next t ∧ t.sp.val = s.sp.val - 1 ∧
    t.pc = s.slot ⟨s.sp.val - 1, by have := s.sp.isLt; omega⟩ + 2 ∧ OnlyTouches { sp := True } s t := by
  have hpop := State.pop_of_pos h
  rw [exec_ret, State.settle_map_ok hpop]
  exact ⟨_, rfl, rfl, rfl, (State.onlyTouches_pop hpop).setPc _⟩

/-- FONT_BASE is at most 432, so the address of the last glyph is far below 65536. -/
theorem ldf_completes {x : Reg} {s : State} (h : (s.reg x).toNat ≤ 15) : ∃ t, exec (.ldf x) s = .next t ∧
    t.I.toNat = s.config.fontBase.val + 5 * (s.reg x).toNat ∧ t.pc = s.pc + 2 ∧ OnlyTouches { I := True } s t := by
  have := s.config.fontBase.isLt
  rw [exec_ldf, State.settle_map_ok (s.glyphAddress_of_le h)]
  refine ⟨_, rfl, ?_, rfl, (s.onlyTouches_setI _).advance⟩
  rw [State.advance_I, State.setI_I, BitVec.toNat_ofNat, Nat.mod_eq_of_lt (by omega)]

/-- What a byte stored at `I + i` by a write that began at `I` reads back as. -/
theorem State.readByte_memWrite_effectiveAddress {s t : State} {bytes : List Byte}
    (h : s.memWrite (s.effectiveAddress 0) bytes = .ok t) {i : Nat} (hi : i < bytes.length) :
    t.readByte (s.effectiveAddress i) = .ok bytes[i] := by
  have hoffset : s.effectiveAddress i - s.effectiveAddress 0 = i := by simp [State.effectiveAddress]
  have hle : s.effectiveAddress 0 ≤ s.effectiveAddress i := by simp [State.effectiveAddress]
  rw [State.readByte_memWrite h, dif_pos ⟨hle, by rw [hoffset]; exact hi⟩]
  simp only [hoffset]

/-- What BCD and STM have in common: an instruction that writes a run of bytes at `I` and advances. -/
theorem completes_of_exec_eq_memWrite {i : Instr} {s : State} {bytes : List Byte}
    (h : exec i s = s.settle ((s.memWrite (s.effectiveAddress 0) bytes).map State.advance))
    (hfit : s.effectiveAddress 0 + bytes.length ≤ memSize) :
    ∃ t, exec i s = .next t ∧ (∀ k, ∀ hk : k < bytes.length, t.readByte (s.effectiveAddress k) = .ok bytes[k]) ∧
      t.pc = s.pc + 2 ∧
      OnlyTouches { byte := fun a => s.effectiveAddress 0 ≤ a ∧ a < s.effectiveAddress 0 + bytes.length } s t := by
  have hwrite := s.memWrite_of_le hfit
  rw [h, State.settle_map_ok hwrite]
  exact ⟨_, rfl, fun k hk => State.readByte_memWrite_effectiveAddress hwrite hk, rfl,
    (State.onlyTouches_memWrite hwrite fun _ hlo hhi => ⟨hlo, hhi⟩).advance⟩

theorem stm_completes {x : Reg} {s : State} (h : s.effectiveAddress 0 + (x.val + 1) ≤ 4096) :
    ∃ t, exec (.stm x) s = .next t ∧ (∀ r : Reg, r ≤ x → t.readByte (s.effectiveAddress r.val) = .ok (s.reg r)) ∧
      t.pc = s.pc + 2 ∧
      OnlyTouches { byte := fun a => s.effectiveAddress 0 ≤ a ∧ a < s.effectiveAddress 0 + (x.val + 1) } s t := by
  obtain ⟨t, hnext, hbytes, hpc, hframe⟩ :=
    completes_of_exec_eq_memWrite (exec_stm x s) (by rw [State.regsUpTo_length]; exact h)
  rw [State.regsUpTo_length] at hframe
  refine ⟨t, hnext, fun r hr => ?_, hpc, hframe⟩
  rw [hbytes r.val (by rw [State.regsUpTo_length]; exact Nat.lt_succ_of_le hr), State.regsUpTo_getElem]

theorem decimalDigits_toNat (v : Byte) : (decimalDigits v)[0].toNat = v.toNat / 100 ∧
    (decimalDigits v)[1].toNat = v.toNat / 10 % 10 ∧ (decimalDigits v)[2].toNat = v.toNat % 10 := by
  have := v.isLt
  simp only [decimalDigits, List.getElem_cons_zero, List.getElem_cons_succ, BitVec.toNat_ofNat]
  omega

theorem bcd_completes (x : Reg) {s : State} (h : s.effectiveAddress 0 + 3 ≤ 4096) :
    ∃ t, exec (.bcd x) s = .next t ∧
      (∀ k, ∀ hk : k < 3, t.readByte (s.effectiveAddress k) = .ok (decimalDigits (s.reg x))[k]) ∧ t.pc = s.pc + 2 ∧
      OnlyTouches { byte := fun a => s.effectiveAddress 0 ≤ a ∧ a < s.effectiveAddress 0 + 3 } s t :=
  completes_of_exec_eq_memWrite (exec_bcd x s) h

theorem ldm_completes {x : Reg} {s : State} (h : s.effectiveAddress 0 + (x.val + 1) ≤ 4096) :
    ∃ t, exec (.ldm x) s = .next t ∧ (∀ r : Reg, r ≤ x → s.readByte (s.effectiveAddress r.val) = .ok (t.reg r)) ∧
      t.pc = s.pc + 2 ∧ OnlyTouches { reg := fun r => r ≤ x } s t := by
  rw [exec_ldm, State.settle_map_ok (s.readSlice_of_le h)]
  refine ⟨_, rfl, fun r hr => ?_, congrArg (· + 2) (s.setRegsFrom_pc ..),
    (s.onlyTouches_setRegsFrom (Memory.readBytes_length ..)).advance⟩
  have hr : r.val ≤ x.val := hr
  have hin : s.effectiveAddress r.val < memSize := by simp only [State.effectiveAddress, memSize] at h ⊢; omega
  rw [State.reg_congr (State.advance_V _), State.reg_setRegsFrom,
    dif_pos ⟨Nat.zero_le _, by rw [Memory.readBytes_length]; omega⟩, Memory.readBytes_getElem, State.readByte,
    if_pos hin]
  rfl

theorem drw_completes {x y : Reg} {n : Nat} {s : State} (h : s.effectiveAddress 0 + n ≤ 4096) :
    ∃ sprite, s.readSlice (s.effectiveAddress 0) n = .ok sprite ∧ sprite.length = n ∧
      exec (.drw x y n) s = .next (s.drawSprite x y sprite).advance := by
  have hread := s.readSlice_of_le h
  exact ⟨_, hread, Memory.readBytes_length .., by rw [exec_drw, State.settle_map_ok hread]⟩

/-- The flag is the register written last, so it reads as the collision. -/
theorem State.reg_flag_drawSprite (s : State) (x y : Reg) (sprite : List Byte) :
    (s.drawSprite x y sprite).reg 15 = flagByte (s.fb.draw sprite (s.reg x).toNat (s.reg y).toNat).2 :=
  State.reg_setReg_same _ flagReg _

/-! ### Faults -/

theorem call_faults (nnn : Word) {s : State} (h : s.sp.val = 16) :
    exec (.call nnn) s = .next (s.takeFault .stackOverflow) := by
  rw [exec_call, State.settle_map_error (State.push_full _ h)]

theorem ret_faults {s : State} (h : s.sp.val = 0) : exec .ret s = .next (s.takeFault .stackUnderflow) := by
  rw [exec_ret, State.settle_map_error (State.pop_empty h)]

theorem ldf_faults {x : Reg} {s : State} (h : 15 < (s.reg x).toNat) :
    exec (.ldf x) s = .next (s.takeFault .invalidDigit) := by
  rw [exec_ldf, State.settle_map_error (s.glyphAddress_error h)]

theorem drw_faults {x y : Reg} {n : Nat} {s : State} (h : 4096 < s.effectiveAddress 0 + n) :
    exec (.drw x y n) s = .next (s.takeFault .memoryBounds) := by
  rw [exec_drw, State.settle_map_error (s.readSlice_error (Nat.not_le.2 h))]

theorem bcd_faults {x : Reg} {s : State} (h : 4096 < s.effectiveAddress 0 + 3) :
    exec (.bcd x) s = .next (s.takeFault .memoryBounds) := by
  rw [exec_bcd, State.settle_map_error (State.memWrite_error (Nat.not_le.2 h))]

theorem stm_faults {x : Reg} {s : State} (h : 4096 < s.effectiveAddress 0 + (x.val + 1)) :
    exec (.stm x) s = .next (s.takeFault .memoryBounds) := by
  rw [exec_stm, State.settle_map_error (State.memWrite_error (by rw [State.regsUpTo_length]; exact Nat.not_le.2 h))]

theorem ldm_faults {x : Reg} {s : State} (h : 4096 < s.effectiveAddress 0 + (x.val + 1)) :
    exec (.ldm x) s = .next (s.takeFault .memoryBounds) := by
  rw [exec_ldm, State.settle_map_error (s.readSlice_error (Nat.not_le.2 h))]

/-! ### The words of the seven instructions -/

theorem decodeWord_ret : decodeWord 0x00EE = some .ret := by
  rw [decodeWord_chain, if_neg (by decide), if_pos (by decide)]

theorem decodeWord_call {w : Word} (h : w.toNat / 4096 = 2) : decodeWord w = some (.call (fieldNnn w)) := by
  simp [decodeWord_chain, toNat_ne_cls_ret h, h]

theorem decodeWord_drw {w : Word} (h : w.toNat / 4096 = 13) :
    decodeWord w = some (.drw (fieldX w) (fieldY w) (fieldN w)) := by
  simp [decodeWord_chain, toNat_ne_cls_ret h, h]

theorem decodeWord_ldf {w : Word} (h : w.toNat / 4096 = 15) (hlow : w.toNat % 256 = 0x29) :
    decodeWord w = some (.ldf (fieldX w)) := by
  simp [decodeWord_chain, toNat_ne_cls_ret h, h, hlow]

theorem decodeWord_bcd {w : Word} (h : w.toNat / 4096 = 15) (hlow : w.toNat % 256 = 0x33) :
    decodeWord w = some (.bcd (fieldX w)) := by
  simp [decodeWord_chain, toNat_ne_cls_ret h, h, hlow]

theorem decodeWord_stm {w : Word} (h : w.toNat / 4096 = 15) (hlow : w.toNat % 256 = 0x55) :
    decodeWord w = some (.stm (fieldX w)) := by
  simp [decodeWord_chain, toNat_ne_cls_ret h, h, hlow]

theorem decodeWord_ldm {w : Word} (h : w.toNat / 4096 = 15) (hlow : w.toNat % 256 = 0x65) :
    decodeWord w = some (.ldm (fieldX w)) := by
  simp [decodeWord_chain, toNat_ne_cls_ret h, h, hlow]

/-! ### The obligations -/

/-- Settles O2: a push of the CALL's own address, and a move of `pc`. -/
theorem callPushesOwnAddress : Obligations.CallPushesOwnAddress := by
  constructor
  · intro nnn s h
    exact call_completes nnn h
  · intro w hw
    rw [decodeWord_call hw, fieldNnn_eq_ofNat]

/-- Settles O3: a pop, which keeps the slots, and a move of `pc` two past the popped entry. -/
theorem retReturnsPastCallSite : Obligations.RetReturnsPastCallSite :=
  ⟨fun _ h => ret_completes h, decodeWord_ret⟩

/-- Settles O9: a write of `I`, whose sum does not wrap for any FONT_BASE. -/
theorem ldfPointsToGlyph : Obligations.LdfPointsToGlyph := by
  constructor
  · intro x s h
    exact ldf_completes h
  · intro w hw hlow
    rw [decodeWord_ldf hw hlow, fieldX_eq_ofNat]

/-- Settles O11: the pixels and the flag are those of the Display's draw of the bytes at `I`. -/
theorem drwFlipsSpriteAndReportsCollision : Obligations.DrwFlipsSpriteAndReportsCollision := by
  constructor
  · intro x y n s hn hfit
    obtain ⟨sprite, hread, rfl, hnext⟩ := drw_completes (x := x) (y := y) hfit
    have hlen : sprite.length ≤ 32 := by omega
    have hcollides := s.fb.draw_collides_iff (s.reg x).toNat (s.reg y).toNat hlen
    have hflag : (s.drawSprite x y sprite).advance.reg 15 = _ := s.reg_flag_drawSprite x y sprite
    refine ⟨_, sprite, hnext, hread, s.fb.pixel_draw_ne_iff _ _ hlen, fun hhit => ?_, fun hmiss => ?_, rfl,
      (s.onlyTouches_drawSprite x y sprite).advance⟩
    · rw [hflag, hcollides.2 hhit]; rfl
    · rw [hflag, Bool.eq_false_iff.2 fun hc => hmiss (hcollides.1 hc)]; rfl
  · intro w hw
    rw [decodeWord_drw hw, fieldX_eq_ofNat, fieldY_eq_ofNat, fieldN_eq]

/-- Settles O12: a write of the three digits at `I`. -/
theorem bcdStoresDecimalDigits : Obligations.BcdStoresDecimalDigits := by
  constructor
  · intro x s hfit
    obtain ⟨t, hnext, hread, hpc, hframe⟩ := bcd_completes x hfit
    obtain ⟨hundreds, tens, ones⟩ := decimalDigits_toNat (s.reg x)
    exact ⟨t, _, _, _, hnext, hread 0 (by decide), hread 1 (by decide), hread 2 (by decide), hundreds, tens, ones,
      by omega, hpc, hframe⟩
  · intro w hw hlow
    rw [decodeWord_bcd hw hlow, fieldX_eq_ofNat]

/-- Settles O13: a write of the registers' bytes at `I`. -/
theorem stmStoresRegisters : Obligations.StmStoresRegisters := by
  constructor
  · intro x s hfit
    exact stm_completes hfit
  · intro w hw hlow
    rw [decodeWord_stm hw hlow, fieldX_eq_ofNat]

/-- Settles O14: the bytes read at `I`, written to the registers one by one. -/
theorem ldmLoadsRegisters : Obligations.LdmLoadsRegisters := by
  constructor
  · intro x s hfit
    exact ldm_completes hfit
  · intro w hw hlow
    rw [decodeWord_ldm hw hlow, fieldX_eq_ofNat]

/-- Settles O15: a push on a full stack and a pop of an empty one fail, and the fault is entered from where CALL or RET
began. -/
theorem callAndRetFaultAtStackLimits : Obligations.CallAndRetFaultAtStackLimits :=
  ⟨fun nnn _ h => call_faults nnn h, fun _ h => ret_faults h⟩

/-- Settles O16: the whole value is compared with 15. -/
theorem ldfFaultsOnDigitOverFifteen : Obligations.LdfFaultsOnDigitOverFifteen :=
  fun _ _ h => ldf_faults h

/-- Settles O17: the range is checked before the first effect. -/
theorem transfersFaultOutsideMemory : Obligations.TransfersFaultOutsideMemory :=
  ⟨fun _ _ _ _ h => drw_faults h, fun _ _ h => bcd_faults h, fun _ _ h => stm_faults h, fun _ _ h => ldm_faults h⟩

end Sys2Proof.Machine
end

section
/-! All fourteen instructions together (10_state.md R24): each touches what the table of writes lists, or faults; a RET
that meets its CALL; word reads and a stored word that is fetched next; and the obligations. -/

namespace Sys2Proof.Machine

/-! ### The table of writes -/

theorem OnlyTouches.byte_mono {P Q : Nat → Prop} {s t : State} (h : OnlyTouches { byte := P } s t)
    (hPQ : ∀ a, P a → Q a) : OnlyTouches { byte := Q } s t := by
  obtain ⟨hreg, hI, hslot, hsp, hbyte, hrest⟩ := h
  exact ⟨hreg, hI, hslot, hsp, fun a hQ => hbyte a fun hP => hQ (hPQ a hP), hrest⟩

theorem OnlyTouches.status_eq {w : Touches} {s t : State} (h : OnlyTouches w s t) : t.status = s.status := by
  obtain ⟨-, -, -, -, -, -, -, -, -, hstatus, -⟩ := h
  exact hstatus

theorem OnlyTouches.keys_eq {w : Touches} {s t : State} (h : OnlyTouches w s t) : t.keys = s.keys := by
  obtain ⟨-, -, -, -, -, -, -, -, hkeys, -, -⟩ := h
  exact hkeys

/-- The instruction `i` from `s` ends with its writes done and no others, or in a fault of the core's own. -/
def CompletesOrFaults (i : Instr) (s : State) : Prop :=
  ∃ t, exec i s = .next t ∧ (OnlyTouches (touchesOf i s) s t ∨ ∃ k, k ≠ .invalidKey ∧ t = s.takeFault k)

theorem CompletesOrFaults.of_next {i : Instr} {s t : State} (h : exec i s = .next t)
    (hframe : OnlyTouches (touchesOf i s) s t) : CompletesOrFaults i s :=
  ⟨t, h, .inl hframe⟩

theorem CompletesOrFaults.of_fault {i : Instr} {s : State} {k : FaultKind} (h : exec i s = .next (s.takeFault k))
    (hk : k ≠ .invalidKey := by decide) : CompletesOrFaults i s :=
  ⟨_, h, .inr ⟨k, hk, rfl⟩⟩

theorem exec_completesOrFaults (i : Instr) (s : State) : CompletesOrFaults i s := by
  cases i with
  | cls => exact .of_next (exec_cls s) (s.onlyTouches_setFb _).advance
  | ret =>
    rcases Nat.eq_zero_or_pos s.sp.val with hempty | hpos
    · exact .of_fault (ret_faults hempty)
    · obtain ⟨t, hnext, -, -, hframe⟩ := ret_completes hpos
      exact .of_next hnext hframe
  | jp nnn => exact .of_next (exec_jp nnn s) ((OnlyTouches.refl _ s).setPc nnn)
  | call nnn =>
    rcases Nat.lt_or_ge s.sp.val 16 with hlt | hfull
    · obtain ⟨t, hnext, -, -, -, hframe⟩ := call_completes nnn hlt
      exact .of_next hnext hframe
    · exact .of_fault (call_faults nnn (Nat.le_antisymm (Nat.le_of_lt_succ s.sp.isLt) hfull))
  | se x kk => exact .of_next (exec_se x kk s) ((OnlyTouches.refl _ s).setPc _)
  | ldk x kk => exact .of_next (exec_ldk x kk s) (s.onlyTouches_setReg x _).advance
  | addk x kk => exact .of_next (exec_addk x kk s) (s.onlyTouches_setReg x _).advance
  | mov x y => exact .of_next (exec_mov x y s) (s.onlyTouches_setReg x _).advance
  | ldi nnn => exact .of_next (exec_ldi nnn s) (s.onlyTouches_setI nnn).advance
  | drw x y n =>
    rcases le_or_gt (s.effectiveAddress 0 + n) 4096 with hfit | hpast
    · obtain ⟨sprite, -, rfl, hnext⟩ := drw_completes (x := x) (y := y) hfit
      exact .of_next hnext (s.onlyTouches_drawSprite x y sprite).advance
    · exact .of_fault (drw_faults hpast)
  | ldf x =>
    rcases le_or_gt (s.reg x).toNat 15 with hdigit | hover
    · obtain ⟨t, hnext, -, -, hframe⟩ := ldf_completes hdigit
      exact .of_next hnext hframe
    · exact .of_fault (ldf_faults hover)
  | bcd x =>
    rcases le_or_gt (s.effectiveAddress 0 + 3) 4096 with hfit | hpast
    · obtain ⟨t, hnext, -, -, hframe⟩ := bcd_completes x hfit
      exact .of_next hnext hframe
    · exact .of_fault (bcd_faults hpast)
  | stm x =>
    rcases le_or_gt (s.effectiveAddress 0 + (x.val + 1)) 4096 with hfit | hpast
    · obtain ⟨t, hnext, -, -, hframe⟩ := stm_completes hfit
      exact .of_next hnext (hframe.byte_mono fun a ⟨hlo, hhi⟩ => ⟨hlo, Nat.le_of_lt_succ hhi⟩)
    · exact .of_fault (stm_faults hpast)
  | ldm x =>
    rcases le_or_gt (s.effectiveAddress 0 + (x.val + 1)) 4096 with hfit | hpast
    · obtain ⟨t, hnext, -, -, hframe⟩ := ldm_completes hfit
      exact .of_next hnext hframe
    · exact .of_fault (ldm_faults hpast)

/-! ### Word reads -/

theorem State.readByte_of_le (s : State) {a : Nat} (h : a ≤ 4095) :
    s.readByte a = .ok (Memory.byteAt s.config s.mem a) := by
  unfold State.readByte; exact if_pos (Nat.lt_succ_of_le h)

theorem State.readByte_ok {s : State} {a : Nat} {b : Byte} (h : s.readByte a = .ok b) :
    a < memSize ∧ b = Memory.byteAt s.config s.mem a := by
  unfold State.readByte at h
  split_ifs at h with ha
  exact ⟨ha, by simpa using h.symm⟩

/-- A word read is two byte reads, the high byte at the lower address (20_memory.md R53). -/
theorem State.readWord_of_readByte {s : State} {a : Nat} {hi lo : Byte} (hhi : s.readByte a = .ok hi)
    (hlo : s.readByte (a + 1) = .ok lo) : s.readWord a = .ok (wordOfBytes hi lo) := by
  obtain ⟨-, rfl⟩ := State.readByte_ok hhi
  obtain ⟨hlast, rfl⟩ := State.readByte_ok hlo
  unfold State.readWord
  exact if_pos hlast

theorem State.readWord_error (s : State) {a : Nat} (h : 4095 < a + 1) : s.readWord a = .error .memoryBounds := by
  unfold State.readWord
  exact if_neg (by simp only [memSize]; omega)

/-! ### The obligations -/

/-- Settles O18: one case per instruction, and for those that can fault one on each side of the condition. -/
theorem writeTableIsExhaustive : Obligations.WriteTableIsExhaustive := by
  intro i s
  obtain ⟨t, hnext, hframe | ⟨k, -, hfault⟩⟩ := exec_completesOrFaults i s
  · exact ⟨t, hnext, .inl hframe⟩
  · exact ⟨t, hnext, .inr ⟨k, hfault⟩⟩

/-- Settles O19: the CALL leaves its address in the slot below the stack pointer, where the RET looks. -/
theorem callThenRetResumesAfterCall : Obligations.CallThenRetResumesAfterCall := by
  intro nnn s t u h hcall hsp hslot
  obtain ⟨t', hcall', hpushed, hcount, -, -⟩ := call_completes nnn h
  obtain rfl : t' = t := Host.Outcome.next.inj (hcall'.symm.trans hcall)
  have hcount : u.sp.val = s.sp.val + 1 := by rw [hsp, hcount]
  obtain ⟨v, hret, hvsp, hvpc, hframe⟩ := ret_completes (s := u) (by omega)
  have htop : u.sp.val - 1 = s.sp.val := by omega
  refine ⟨v, hret, Fin.ext (hvsp.trans htop), ?_, hframe⟩
  simp only [hvpc, htop, hslot, hpushed]

/-- Settles O20: the next fetch reads at the address where the store began, which holds `V[0]` and then `V[1]`. -/
theorem storedWordIsFetchedNext : Obligations.StoredWordIsFetchedNext := by
  intro x s hx hI hfit
  obtain ⟨t, hnext, hstored, hpc, -⟩ := stm_completes (x := x) hfit
  have haddr : t.pc.toNat = s.effectiveAddress 0 := by
    rw [hpc, BitVec.toNat_add, show (2 : Word).toNat = 2 from rfl, hI, Nat.mod_eq_of_lt (by omega)]
  have hhi : t.readByte t.pc.toNat = .ok (s.reg 0) := haddr ▸ hstored 0 (Fin.zero_le x)
  have hlo : t.readByte (t.pc.toNat + 1) = .ok (s.reg 1) := haddr ▸ hstored 1 hx
  exact ⟨t, _, hnext, State.readWord_of_readByte hhi hlo, wordOfBytes_toNat _ _⟩

/-- Settles O35: both bytes of the word are in memory when the second one is. -/
theorem readWordIsBigEndian : Obligations.ReadWordIsBigEndian := by
  intro s a
  constructor
  · intro h
    have hhi := s.readByte_of_le (a := a) (by omega)
    have hlo := s.readByte_of_le h
    exact ⟨_, _, _, hhi, hlo, State.readWord_of_readByte hhi hlo, wordOfBytes_toNat _ _⟩
  · exact s.readWord_error

end Sys2Proof.Machine
end

section
/-! The step (40_step_cycle.md R110 to R119): one rule for each way a step of a Running core can go, that it always
answers, that the key bitmap takes no part in it, the jump to itself, and the obligations. -/

namespace Sys2Proof.Machine

/-! ### The ways a step of a Running core can go -/

theorem step_of_fetch_error {s : State} {k : FaultKind} (hs : s.status = .running) (hf : s.fetch = .error k) :
    step s = .next (s.takeFault k) := by
  simp only [step, hs, hf]

theorem step_of_decodeWord_none {s : State} {w : Word} (hs : s.status = .running) (hf : s.fetch = .ok w)
    (hd : decodeWord w = none) : step s = .next (s.takeFault .decodeError) := by
  simp only [step, hs, hf, hd]

theorem step_of_decodeWord_some {s : State} {w : Word} {i : Instr} (hs : s.status = .running) (hf : s.fetch = .ok w)
    (hd : decodeWord w = some i) : step s = endOfStep (exec i s) := by
  simp only [step, hs, hf, hd]

theorem step_of_faulted {s : State} {k : FaultKind} (hs : s.status = .faulted k) :
    step s = .fault (.noStepWhileFaulted k) := by
  simp only [step, hs]

theorem State.fetch_error {s : State} {k : FaultKind} (h : s.fetch = .error k) : k = .memoryBounds := by
  unfold State.fetch State.readWord at h
  split_ifs at h
  cases h
  rfl

/-- A step of a Running core answers a next state, which is Running or is the state before with a fault entered. -/
theorem step_answers {s : State} (hs : s.status = .running) :
    ∃ t, step s = .next t ∧ (t.status = .running ∨ ∃ k, k ≠ .invalidKey ∧ t = s.takeFault k) := by
  cases hf : s.fetch with
  | error k =>
    obtain rfl := State.fetch_error hf
    exact ⟨_, step_of_fetch_error hs hf, .inr ⟨_, by decide, rfl⟩⟩
  | ok w =>
    cases hd : decodeWord w with
    | none => exact ⟨_, step_of_decodeWord_none hs hf hd, .inr ⟨_, by decide, rfl⟩⟩
    | some i =>
      obtain ⟨t, hnext, hframe | ⟨k, hk, rfl⟩⟩ := exec_completesOrFaults i s
      · refine ⟨t.finishStep, by rw [step_of_decodeWord_some hs hf hd, hnext]; rfl, .inl ?_⟩
        rw [State.finishStep_status, hframe.status_eq, hs]
      · exact ⟨_, by rw [step_of_decodeWord_some hs hf hd, hnext]; rfl, .inr ⟨k, hk, rfl⟩⟩

/-! ### The two bytes at `pc` -/

theorem decodeWord_of_decode_ok {hi lo : Byte} {i : Instr} (h : decode [hi, lo] = .ok (i, [])) :
    decodeWord (wordOfBytes hi lo) = some i := by
  obtain ⟨hi', lo', hbytes, hword⟩ := decode_ok h
  obtain ⟨rfl, rfl⟩ : hi = hi' ∧ lo = lo' := by simpa using hbytes
  exact hword

theorem decodeWord_of_decode_error {hi lo : Byte} {r : DecodeReject} (h : decode [hi, lo] = .error r) :
    decodeWord (wordOfBytes hi lo) = none := by
  cases hd : decodeWord (wordOfBytes hi lo) with
  | none => rfl
  | some i => rw [decode_cons_cons_ok hd] at h; cases h

/-! ### The key bitmap takes no part -/

def State.withKeys (s : State) (keys : BitVec 16) : State := { s with keys := keys }

/-- An operation that can fail commutes with a new bitmap if its result and its effect carry the bitmap along. -/
theorem State.settle_map_withKeys {α β : Type} {s : State} {keys : BitVec 16} {r : Except FaultKind α}
    {r' : Except FaultKind β} {g : α → β} {f : α → State} {f' : β → State} (hr : r' = r.map g)
    (hf : ∀ a, f' (g a) = (f a).withKeys keys) :
    (s.withKeys keys).settle (r'.map f') = mapNext (·.withKeys keys) (s.settle (r.map f)) := by
  subst hr
  cases r with
  | ok a => exact congrArg Host.Outcome.next (hf a)
  | error k => rfl

/-- The case of an operation that answers a value and no state. -/
theorem State.settle_map_withKeys_of_value {α : Type} {s : State} {keys : BitVec 16} (r : Except FaultKind α)
    {f f' : α → State} (hf : ∀ a, f' a = (f a).withKeys keys) :
    (s.withKeys keys).settle (r.map f') = mapNext (·.withKeys keys) (s.settle (r.map f)) :=
  State.settle_map_withKeys (g := id) (congrFun Except.map_id r).symm hf

theorem State.push_withKeys (s : State) (keys : BitVec 16) (a : Word) :
    (s.withKeys keys).push a = (s.push a).map (·.withKeys keys) := by
  rcases Nat.lt_or_ge s.sp.val 16 with hlt | hfull
  · rw [State.push_of_lt a hlt]
    exact State.push_of_lt (s := s.withKeys keys) a hlt
  · have hfull := Nat.le_antisymm (Nat.le_of_lt_succ s.sp.isLt) hfull
    rw [State.push_full a hfull]
    exact State.push_full (s := s.withKeys keys) a hfull

theorem State.pop_withKeys (s : State) (keys : BitVec 16) :
    (s.withKeys keys).pop = s.pop.map (fun popped => (popped.1, popped.2.withKeys keys)) := by
  rcases Nat.eq_zero_or_pos s.sp.val with hempty | hpos
  · rw [State.pop_empty hempty]
    exact State.pop_empty (s := s.withKeys keys) hempty
  · rw [State.pop_of_pos hpos]
    exact State.pop_of_pos (s := s.withKeys keys) hpos

theorem State.memWrite_withKeys (s : State) (keys : BitVec 16) (a : Nat) (bytes : List Byte) :
    (s.withKeys keys).memWrite a bytes = (s.memWrite a bytes).map (·.withKeys keys) := by
  by_cases hfit : a + bytes.length ≤ memSize
  · rw [s.memWrite_of_le hfit]
    exact (s.withKeys keys).memWrite_of_le hfit
  · rw [State.memWrite_error (s := s) hfit]
    exact State.memWrite_error hfit

theorem State.setRegsFrom_withKeys (s : State) (keys : BitVec 16) (k : Nat) (bytes : List Byte) :
    (s.withKeys keys).setRegsFrom k bytes = (s.setRegsFrom k bytes).withKeys keys := by
  induction bytes generalizing s k with
  | nil => rfl
  | cons b rest ih =>
    simp only [State.setRegsFrom]
    split_ifs with hk
    · exact ih (s.setReg ⟨k, hk⟩ b) (k + 1)
    · exact ih s (k + 1)

theorem exec_withKeys (i : Instr) (s : State) (keys : BitVec 16) :
    exec i (s.withKeys keys) = mapNext (·.withKeys keys) (exec i s) := by
  cases i with
  | cls | jp | ldk | addk | mov | ldi => rfl
  | se x kk => rw [exec_se, exec_se]; rfl
  | call nnn => exact State.settle_map_withKeys (s.push_withKeys keys s.pc) fun _ => rfl
  | ret => exact State.settle_map_withKeys (s.pop_withKeys keys) fun _ => rfl
  | ldf x => exact State.settle_map_withKeys_of_value (s.glyphAddress (s.reg x)) fun _ => rfl
  | drw x y n => exact State.settle_map_withKeys_of_value (s.readSlice (s.effectiveAddress 0) n) fun _ => rfl
  | bcd x => exact State.settle_map_withKeys (s.memWrite_withKeys keys _ _) fun _ => rfl
  | stm x => exact State.settle_map_withKeys (s.memWrite_withKeys keys _ _) fun _ => rfl
  | ldm x =>
    exact State.settle_map_withKeys_of_value (s.readSlice (s.effectiveAddress 0) (x.val + 1)) fun bytes =>
      congrArg State.advance (s.setRegsFrom_withKeys keys 0 bytes)

theorem endOfStep_withKeys (o : Host.Outcome State Fault Refusal) (keys : BitVec 16) :
    endOfStep (mapNext (·.withKeys keys) o) = mapNext (·.withKeys keys) (endOfStep o) := by
  cases o with
  | next t =>
    refine congrArg Host.Outcome.next ?_
    cases ht : t.status with
    | running => rw [State.finishStep_running ht, State.finishStep_running (t := t.withKeys keys) ht]; rfl
    | faulted k => rw [State.finishStep_faulted ht, State.finishStep_faulted (t := t.withKeys keys) ht]
  | fault | refused => rfl

theorem step_withKeys {s : State} (hs : s.status = .running) (keys : BitVec 16) :
    step (s.withKeys keys) = mapNext (·.withKeys keys) (step s) := by
  cases hf : s.fetch with
  | error k => rw [step_of_fetch_error hs hf, step_of_fetch_error (s := s.withKeys keys) hs hf]; rfl
  | ok w =>
    cases hd : decodeWord w with
    | none => rw [step_of_decodeWord_none hs hf hd, step_of_decodeWord_none (s := s.withKeys keys) hs hf hd]; rfl
    | some i =>
      rw [step_of_decodeWord_some hs hf hd, step_of_decodeWord_some (s := s.withKeys keys) hs hf hd, exec_withKeys,
        endOfStep_withKeys]

theorem exec_keys {i : Instr} {s t : State} (h : exec i s = .next t) : t.keys = s.keys := by
  obtain ⟨t', hnext, hcases⟩ := exec_completesOrFaults i s
  obtain rfl : t' = t := Host.Outcome.next.inj (hnext.symm.trans h)
  obtain hframe | ⟨k, -, rfl⟩ := hcases
  · exact hframe.keys_eq
  · rfl

theorem step_keys {s t : State} (hs : s.status = .running) (h : step s = .next t) : t.keys = s.keys := by
  obtain ⟨k, -, rfl⟩ | ⟨w, -, -, rfl⟩ | ⟨w, i, u, -, -, hexec, rfl⟩ := step_cases hs h
  · rfl
  · rfl
  · rw [u.finishStep_eq]
    exact exec_keys (t := u) hexec

/-! ### A jump to itself -/

theorem step_selfJump {s : State} {w : Word} (hs : s.status = .running) (hf : s.fetch = .ok w)
    (hd : decodeWord w = some (.jp s.pc)) : step s = .next s.tick := by
  rw [step_of_decodeWord_some hs hf hd, exec_jp]
  exact congrArg Host.Outcome.next (State.finishStep_running hs)

/-- The tick changes neither `pc` nor memory, so the state after it is at the same jump. -/
theorem safeFor_selfJump {s : State} {w : Word} (hs : s.status = .running) (hf : s.fetch = .ok w)
    (hd : decodeWord w = some (.jp s.pc)) (n : Nat) : SafeFor n s := by
  induction n generalizing s with
  | zero => exact hs
  | succ n ih => exact ⟨s.tick, ⟨step_selfJump hs hf hd, hs⟩, ih (s := s.tick) hs hf hd⟩

/-! ### The obligations -/

/-- Settles O21: the two bytes are the fetched word, and the end of the step ticks unless the status is Faulted. -/
theorem stepRunsDecodedInstruction : Obligations.StepRunsDecodedInstruction := by
  intro s hi lo i t hs hhi hlo hdecode hexec
  have hstep : step s = .next t.finishStep := by
    rw [step_of_decodeWord_some hs (State.readWord_of_readByte hhi hlo) (decodeWord_of_decode_ok hdecode), hexec]
    rfl
  constructor
  · intro hrun
    rw [hstep, State.finishStep_running hrun]
    rfl
  · intro k hfault
    rw [hstep, State.finishStep_faulted hfault]

/-- Settles O22: a word read fails from 4095 on, and a word in no row of the table decodes to nothing. -/
theorem fetchAndDecodeFaults : Obligations.FetchAndDecodeFaults := by
  constructor
  · intro s hs hpc
    exact step_of_fetch_error hs (s.readWord_error (Nat.lt_succ_of_le hpc))
  · intro s hi lo w hs hhi hlo hdecode
    exact step_of_decodeWord_none hs (State.readWord_of_readByte hhi hlo) (decodeWord_of_decode_error hdecode)

/-- Settles O23: `step` looks at the status before anything else. -/
theorem noStepWhileFaulted : Obligations.NoStepWhileFaulted :=
  fun _ _ h => step_of_faulted h

/-- Settles O24: each phase of the step completes or enters its fault from the state before. -/
theorem faultingStepChangesOnlyStatus : Obligations.FaultingStepChangesOnlyStatus :=
  fun _ hs => step_answers hs

/-- Settles O26: every instruction commutes with a change of the bitmap, and none writes it. -/
theorem keysNeverInfluenceSteps : Obligations.KeysNeverInfluenceSteps :=
  fun _ keys hs => ⟨step_withKeys hs keys, fun _ h => step_keys hs h⟩

/-- Settles O27: the jump leaves `pc`, and the tick leaves the jump, where they were. -/
theorem selfJumpRunsForever : Obligations.SelfJumpRunsForever := by
  intro s hi lo hs hhi hlo hdecode n
  have hf : s.fetch = .ok (wordOfBytes hi lo) := State.readWord_of_readByte hhi hlo
  have hd := decodeWord_of_decode_ok hdecode
  refine ⟨safeFor_selfJump hs hf hd n, fun t hstep => ?_⟩
  obtain rfl : s.tick = t := Host.Outcome.next.inj ((step_selfJump hs hf hd).symm.trans hstep)
  rfl

end Sys2Proof.Machine
end

section
/-! The host's boundary (60_exceptions.md R198 to R204, 70_reset_and_hazards.md R220 to R222): the framebuffer read, the
keys, program load, reset, the step as the host sees it, and the obligations. -/

namespace Sys2Proof.Machine

/-! ### The framebuffer read -/

theorem Framebuffer.pixels_eq_flatten (fb : Framebuffer) : fb.pixels = fb.flatten.toList := by
  simp only [Framebuffer.pixels, Vector.flatten, Vector.toList, Array.toList_flatten, Array.toList_map, List.map_map]
  rfl

theorem Framebuffer.pixels_length (fb : Framebuffer) : fb.pixels.length = 2048 := by
  rw [fb.pixels_eq_flatten, Vector.length_toList]

/-- Pixel `(x, y)` is element `y * 64 + x` (10_state.md R31). -/
theorem Framebuffer.pixels_getElem? (fb : Framebuffer) (y : Fin 32) (x : Fin 64) :
    fb.pixels[y.val * 64 + x.val]? = some (fb.pixel y x) := by
  have hrow : (y.val * 64 + x.val) / 64 = y.val := by omega
  have hcolumn : (y.val * 64 + x.val) % 64 = x.val := by omega
  have hlt : y.val * 64 + x.val < 32 * 64 := by omega
  rw [fb.pixels_eq_flatten, List.getElem?_eq_getElem (by rw [Vector.length_toList]; exact hlt), Vector.getElem_toList,
    Vector.getElem_flatten hlt]
  simp only [hrow, hcolumn, Framebuffer.pixel]

/-! ### The keys -/

theorem getLsbD_setKeyBit (keys : BitVec 16) {key k : Nat} (hkey : key < 16) (v : Bool) :
    (setKeyBit keys key v).getLsbD k = if k = key then v else keys.getLsbD k := by
  unfold setKeyBit
  by_cases hk : k = key
  · subst hk
    cases v <;> simp [hkey]
  · cases v with
    | true => simp [hk, Ne.symm hk]
    | false => simpa [hk, Ne.symm hk] using BitVec.lt_of_getLsbD

theorem State.isPressed_of_le (s : State) {key : Nat} (h : key ≤ 15) :
    s.isPressed key = .ok (s.keys.getLsbD key) := by
  unfold State.isPressed; exact if_pos (by omega)

/-- After a change of one key, is_pressed answers the new value for it and the old ones for the others. -/
theorem State.isPressed_setKeyBit (s : State) {key k : Nat} (hkey : key ≤ 15) (hk : k ≤ 15) (v : Bool) :
    (s.withKeys (setKeyBit s.keys key v)).isPressed k = if k = key then .ok v else s.isPressed k := by
  rw [State.isPressed_of_le _ hk, s.isPressed_of_le hk]
  show Except.ok ((setKeyBit s.keys key v).getLsbD k) = _
  rw [getLsbD_setKeyBit s.keys (by omega) v]
  exact apply_ite Except.ok _ _ _

theorem State.press_of_le (s : State) {key : Nat} (h : key ≤ 15) :
    s.press key = .ok (s.withKeys (setKeyBit s.keys key true)) := by
  unfold State.press; exact if_pos (by omega)

theorem State.release_of_le (s : State) {key : Nat} (h : key ≤ 15) :
    s.release key = .ok (s.withKeys (setKeyBit s.keys key false)) := by
  unfold State.release; exact if_pos (by omega)

theorem State.key_error (s : State) {key : Nat} (h : 15 < key) : s.press key = .error .invalidKey ∧
    s.release key = .error .invalidKey ∧ s.isPressed key = .error .invalidKey := by
  unfold State.press State.release State.isPressed
  exact ⟨if_neg (by omega), if_neg (by omega), if_neg (by omega)⟩

/-! ### What the host gets back -/

theorem State.replyOf_ok {s t : State} {r : Except FaultKind State} (h : r = .ok t) : s.replyOf r = (.ok, t) := by
  rw [h]; rfl

theorem State.replyOf_error {s : State} {r : Except FaultKind State} {k : FaultKind} (h : r = .error k) :
    s.replyOf r = (.failed k, s) := by
  rw [h]; rfl

theorem operate_press (key : Nat) (s : State) : operate (.press key) s = s.replyOf (s.press key) := rfl

theorem operate_release (key : Nat) (s : State) : operate (.release key) s = s.replyOf (s.release key) := rfl

theorem operate_load_of_running (image : List Byte) {s : State} (hs : s.status = .running) :
    operate (.load image) s = s.replyOf (s.memWrite 0x200 image) := by
  simp only [operate, hs]
  rfl

theorem operate_load_of_faulted (image : List Byte) {s : State} {k : FaultKind} (hs : s.status = .faulted k) :
    operate (.load image) s = (.notDefined, s) := by
  simp only [operate, hs]

/-- The host's step leaves the state that the step answers, and reports what its status says. -/
theorem operate_step_of_next {s t : State} (h : step s = .next t) : (operate .step s).2 = t ∧
    (t.status = .running → operate .step s = (.ok, t)) ∧
    ∀ k, t.status = .faulted k → operate .step s = (.failed k, t) := by
  simp only [operate, h, State.replyOfStep]
  cases t.status with
  | running => exact ⟨rfl, fun _ => rfl, fun _ hk => nomatch hk⟩
  | faulted k => exact ⟨rfl, fun hk => (nomatch hk), fun _ hk => by cases hk; rfl⟩

theorem operate_step_of_faulted {s : State} {k : FaultKind} (hs : s.status = .faulted k) :
    operate .step s = (.notDefined, s) := by
  simp only [operate, step_of_faulted hs, State.replyOfStep]

/-- A press and a release, of whatever key, change the bitmap at most. -/
theorem operate_key_state (key : Nat) (s : State) : (∃ keys, (operate (.press key) s).2 = s.withKeys keys) ∧
    ∃ keys, (operate (.release key) s).2 = s.withKeys keys := by
  rw [operate_press, operate_release]
  rcases le_or_gt key 15 with hle | hover
  · rw [State.replyOf_ok (s.press_of_le hle), State.replyOf_ok (s.release_of_le hle)]
    exact ⟨⟨_, rfl⟩, _, rfl⟩
  · obtain ⟨hpress, hrelease, -⟩ := s.key_error hover
    rw [State.replyOf_error hpress, State.replyOf_error hrelease]
    exact ⟨⟨s.keys, rfl⟩, s.keys, rfl⟩

/-- Only reset leaves Faulted (60_exceptions.md R202). -/
theorem operate_status_of_faulted {op : HostOp} {s : State} {k : FaultKind} (hs : s.status = .faulted k)
    (hop : op ≠ .reset) : (operate op s).2.status = .faulted k := by
  cases op with
  | reset => exact absurd rfl hop
  | load image => rw [operate_load_of_faulted image hs]; exact hs
  | step => rw [operate_step_of_faulted hs]; exact hs
  | press key => obtain ⟨⟨keys, hstate⟩, -⟩ := operate_key_state key s; rw [hstate]; exact hs
  | release key => obtain ⟨-, keys, hstate⟩ := operate_key_state key s; rw [hstate]; exact hs
  | readFramebuffer => exact hs

/-! ### Reset -/

theorem resetByte_of_font (c : Config) (k : Fin 80) : resetByte c (c.fontBase.val + k.val) = c.fontTable[k] := by
  have hin : c.fontBase.val ≤ c.fontBase.val + k.val ∧ c.fontBase.val + k.val - c.fontBase.val < 80 := by omega
  rw [resetByte, dif_pos hin]
  simp only [Nat.add_sub_cancel_left, Fin.getElem_fin]

theorem resetByte_of_not_font (c : Config) {a : Nat} (h : a < c.fontBase.val ∨ c.fontBase.val + 80 ≤ a) :
    resetByte c a = 0 := by
  rw [resetByte, dif_neg (by omega)]

/-- The font table ends at 0x200 at the latest, so the two bytes at the reset value of `pc` are 0. -/
theorem State.fetch_resetWith (c : Config) : (State.resetWith c).fetch = .ok 0x0000 := by
  have hbase := c.fontBase.isLt
  have hpc : (State.resetWith c).pc.toNat = 0x200 := rfl
  have hzero : ∀ a, 0x200 ≤ a → a ≤ 4095 → (State.resetWith c).readByte a = .ok 0 := by
    intro a hlo hhi
    rw [State.readByte_of_le _ hhi]
    exact congrArg Except.ok (resetByte_of_not_font c (.inr (by omega)))
  have hhi := hzero 0x200 (by omega) (by omega)
  have hlo := hzero (0x200 + 1) (by omega) (by omega)
  rw [State.fetch, hpc, State.readWord_of_readByte hhi hlo]
  rfl

/-! ### The obligations -/

/-- Settles O39: the rows in order, each 64 pixels long. -/
theorem framebufferReadIsRowMajor : Obligations.FramebufferReadIsRowMajor :=
  fun s => ⟨s.fb.pixels, rfl, s.fb.pixels_length, s.fb.pixels_getElem?⟩

/-- Settles O40: press and release are one change of the bitmap with different values. -/
theorem pressAndReleaseChangeOneKey : Obligations.PressAndReleaseChangeOneKey := by
  constructor
  · intro s key hkey
    exact ⟨⟨_, (operate_press key s).trans (State.replyOf_ok (s.press_of_le hkey)), rfl,
        fun k hk => s.isPressed_setKeyBit hkey hk true⟩,
      ⟨_, (operate_release key s).trans (State.replyOf_ok (s.release_of_le hkey)), rfl,
        fun k hk => s.isPressed_setKeyBit hkey hk false⟩⟩
  · intro s key hkey
    obtain ⟨hpress, hrelease, hquery⟩ := s.key_error hkey
    exact ⟨State.replyOf_error hpress, State.replyOf_error hrelease, hquery⟩

/-- Settles O41: program load is the write of its image at 0x200. -/
theorem programLoadCopiesImage : Obligations.ProgramLoadCopiesImage := by
  intro s image hs
  rw [operate_load_of_running image hs]
  constructor
  · intro hfit
    have hwrite := s.memWrite_of_le hfit
    exact ⟨_, State.replyOf_ok hwrite, State.readSlice_memWrite hwrite, State.memWrite_pc hwrite,
      State.onlyTouches_memWrite hwrite fun _ hlo hhi => ⟨hlo, hhi⟩⟩
  · intro hlong
    exact State.replyOf_error (State.memWrite_error (Nat.not_le.2 hlong))

/-- Settles O51: in Running the reply is read off the state the step answers; in Faulted every operation but reset
keeps the status. -/
theorem hostStepAndLoadByStatus : Obligations.HostStepAndLoadByStatus := by
  constructor
  · intro s hs
    obtain ⟨t, hstep, -⟩ := step_answers hs
    exact ⟨t, hstep, (operate_step_of_next hstep).2⟩
  · intro s k hs
    refine ⟨operate_step_of_faulted hs, fun image => operate_load_of_faulted image hs, fun op => ?_⟩
    refine ⟨fun hrun => ?_, fun hreset => by rw [hreset]; rfl⟩
    by_contra hop
    rw [operate_status_of_faulted hs hop] at hrun
    cases hrun

/-- Settles O42: memory after reset lists nothing, so every byte reads as the reset contents. -/
theorem resetLeavesResetValues : Obligations.ResetLeavesResetValues := by
  intro s
  refine ⟨s.resetOp, rfl, rfl, fun r => Vector.getElem_replicate _, rfl, rfl, fun k => Vector.getElem_replicate _, rfl,
    rfl, rfl, Framebuffer.pixel_allOff, rfl, rfl, fun k => ?_, fun a ha hnot => ?_⟩
  · rw [State.readByte_of_le _ (by omega)]
    exact congrArg Except.ok (resetByte_of_font s.config k)
  · rw [State.readByte_of_le _ (by omega)]
    exact congrArg Except.ok (resetByte_of_not_font s.config hnot)

/-- Settles O43: the word 0x0000 is in no row of the table. -/
theorem stepAfterResetFaults : Obligations.StepAfterResetFaults :=
  fun c => ⟨State.fetch_resetWith c, step_of_decodeWord_none rfl (State.fetch_resetWith c) (by decide)⟩

end Sys2Proof.Machine
end

section
/-! The invariants (10_state.md R25, R28, R29; 20_memory.md R50): what keeps each of them, instruction by instruction;
that a step keeps what its phases keep, and a session what its operations keep; and the obligations. -/

namespace Sys2Proof.Machine

/-! ### What a predicate must outlast -/

/-- An instruction that can fault keeps what the fault and its effect, where it succeeds, keep. -/
theorem State.settle_map_keeps {α : Type} {P : State → Prop} {s t : State} {r : Except FaultKind α} {f : α → State}
    (h : s.settle (r.map f) = .next t) (hfault : ∀ k, P (s.takeFault k)) (hok : ∀ a, r = .ok a → P (f a)) : P t := by
  cases r with
  | ok a => cases h; exact hok a rfl
  | error k => cases h; exact hfault k

/-- A step keeps what a fault, the decoded instruction and the tick keep. -/
theorem step_keeps {P : State → Prop} {s t : State} (h : step s = .next t) (hfault : ∀ k, P (s.takeFault k))
    (hexec : ∀ w i u, s.fetch = .ok w → decodeWord w = some i → exec i s = .next u → P u)
    (htick : ∀ u, P u → P u.tick) : P t := by
  obtain ⟨k, -, rfl⟩ | ⟨w, -, -, rfl⟩ | ⟨w, i, u, hf, hd, hx, rfl⟩ := step_cases (running_of_step_next h) h
  · exact hfault k
  · exact hfault .decodeError
  · have hu := hexec w i u hf hd hx
    cases hrun : u.status with
    | running => rw [State.finishStep_running hrun]; exact htick u hu
    | faulted k => rw [State.finishStep_faulted hrun]; exact hu

/-- Everything that the state after a host operation can be. -/
theorem operate_state_cases (op : HostOp) (s : State) :
    (operate op s).2 = s ∨ (operate op s).2 = s.resetOp ∨
    (∃ image, s.memWrite 0x200 image = .ok (operate op s).2) ∨ step s = .next (operate op s).2 ∨
    ∃ keys, (operate op s).2 = s.withKeys keys := by
  cases op with
  | reset => exact .inr (.inl rfl)
  | load image =>
    cases hs : s.status with
    | running =>
      rw [operate_load_of_running image hs]
      cases hw : s.memWrite 0x200 image with
      | ok t => exact .inr (.inr (.inl ⟨image, hw⟩))
      | error k => exact .inl rfl
    | faulted k => rw [operate_load_of_faulted image hs]; exact .inl rfl
  | step =>
    cases hs : s.status with
    | running =>
      obtain ⟨t, hstep, -⟩ := step_answers hs
      exact .inr (.inr (.inr (.inl (by rw [(operate_step_of_next hstep).1]; exact hstep))))
    | faulted k => rw [operate_step_of_faulted hs]; exact .inl rfl
  | press key => exact .inr (.inr (.inr (.inr (operate_key_state key s).1)))
  | release key => exact .inr (.inr (.inr (.inr (operate_key_state key s).2)))
  | readFramebuffer => exact .inl rfl

/-- What every operation keeps holds after every session. -/
theorem session_keeps {P : State → Prop} (hop : ∀ op s, P s → P (operate op s).2) (ops : List HostOp) {s : State}
    (hs : P s) : P (session ops s) := by
  induction ops generalizing s with
  | nil => exact hs
  | cons op rest ih => exact ih (hop op s hs)

/-! ### The call stack and the registers, as states -/

theorem State.push_ok {s t : State} {a : Word} (h : s.push a = .ok t) :
    ∃ hlt : s.sp.val < 16,
      t = { s with stack := s.stack.set s.sp.val a hlt, sp := ⟨s.sp.val + 1, Nat.succ_lt_succ hlt⟩ } := by
  unfold State.push at h
  split_ifs at h with hlt
  exact ⟨hlt, (Except.ok.inj h).symm⟩

theorem State.pop_ok {s : State} {popped : Word × State} (h : s.pop = .ok popped) :
    ∃ k sp, popped = (s.slot k, { s with sp := sp }) := by
  have hpos : 0 < s.sp.val := Nat.pos_of_ne_zero fun hempty => by rw [State.pop_empty hempty] at h; cases h
  rw [State.pop_of_pos hpos] at h
  exact ⟨_, _, (Except.ok.inj h).symm⟩

/-! ### Memory in canonical form -/

theorem State.MemoryCanonical.memWrite {s t : State} {a : Nat} {bytes : List Byte} (hs : s.MemoryCanonical)
    (h : s.memWrite a bytes = .ok t) : t.MemoryCanonical := by
  obtain ⟨hfit, rfl⟩ := State.memWrite_ok h
  exact Memory.writeBytes_wf hfit hs

/-- BCD and STM write memory by one such write; the other twelve instructions leave it as it was. -/
theorem State.MemoryCanonical.exec {i : Instr} {s t : State} (hs : s.MemoryCanonical)
    (h : exec i s = .next t) : t.MemoryCanonical := by
  have hfault : ∀ k, (s.takeFault k).MemoryCanonical := fun _ => hs
  cases i with
  | cls | ldk | addk | mov | ldi | jp => cases h; exact hs
  | se x kk => rw [exec_se] at h; cases h; exact hs
  | call nnn =>
    refine State.settle_map_keeps h hfault fun u hpush => ?_
    obtain ⟨-, rfl⟩ := State.push_ok hpush
    exact hs
  | ret =>
    refine State.settle_map_keeps h hfault fun popped hpop => ?_
    obtain ⟨k, sp, rfl⟩ := State.pop_ok hpop
    exact hs
  | ldf x => exact State.settle_map_keeps h hfault fun _ _ => hs
  | drw x y n => exact State.settle_map_keeps h hfault fun _ _ => hs
  | bcd x => exact State.settle_map_keeps h hfault fun u hwrite => (hs.memWrite hwrite : u.MemoryCanonical)
  | stm x => exact State.settle_map_keeps h hfault fun u hwrite => (hs.memWrite hwrite : u.MemoryCanonical)
  | ldm x =>
    refine State.settle_map_keeps h hfault fun bytes _ => ?_
    rw [s.setRegsFrom_eq]
    exact hs

theorem State.MemoryCanonical.step {s t : State} (hs : s.MemoryCanonical) (h : step s = .next t) :
    t.MemoryCanonical :=
  step_keeps h (fun _ => hs) (fun _ _ _ _ _ hexec => hs.exec hexec) fun _ hu => hu

/-! ### Addresses in range -/

theorem State.AddressesInRange.setPc {s : State} (hs : s.AddressesInRange) {target : Word}
    (h : target.toNat ≤ 0x1002) : (s.setPc target).AddressesInRange := by
  obtain ⟨hI, -, hslot⟩ := hs
  exact ⟨hI, h, hslot⟩

theorem State.AddressesInRange.setI {s : State} (hs : s.AddressesInRange) {a : Word} (h : a.toNat ≤ 0xFFF) :
    (s.setI a).AddressesInRange := by
  obtain ⟨-, hpc, hslot⟩ := hs
  exact ⟨h, hpc, hslot⟩

theorem State.AddressesInRange.push {s t : State} (hs : s.AddressesInRange) {a : Word} (ha : a.toNat ≤ 0xFFE)
    (h : s.push a = .ok t) : t.AddressesInRange := by
  obtain ⟨hI, hpc, hslot⟩ := hs
  obtain ⟨hlt, rfl⟩ := State.push_ok h
  refine ⟨hI, hpc, fun k => ?_⟩
  show ((s.stack.set s.sp.val a hlt)[k.val]).toNat ≤ 0xFFE
  rw [Vector.getElem_set]
  split_ifs
  · exact ha
  · exact hslot k

theorem State.glyphAddress_toNat_le {s : State} {digit : Byte} {a : Word} (h : s.glyphAddress digit = .ok a) :
    a.toNat ≤ 0xFFF := by
  have hbase := s.config.fontBase.isLt
  have hdigit : digit.toNat ≤ 15 := Nat.not_lt.1 fun hover => by rw [s.glyphAddress_error hover] at h; cases h
  rw [s.glyphAddress_of_le hdigit] at h
  cases h
  rw [BitVec.toNat_ofNat, Nat.mod_eq_of_lt (by omega)]
  omega

/-- From an address that can be fetched, one or two instructions on is at most 0x1002. -/
theorem toNat_add_le {pc : Word} (hpc : pc.toNat ≤ 0xFFE) {d : Word} (hd : d.toNat ≤ 4) :
    (pc + d).toNat ≤ 0x1002 := by
  rw [BitVec.toNat_add, Nat.mod_eq_of_lt (by omega)]
  omega

/-- What a fetched, decoded instruction keeps: its `pc` holds two bytes of memory, and its immediate twelve bits. -/
theorem State.AddressesInRange.exec {i : Instr} {s t : State} (hs : s.AddressesInRange) (hpc : s.pc.toNat ≤ 0xFFE)
    (hwf : i.WellFormed) (h : exec i s = .next t) : t.AddressesInRange := by
  have hfault : ∀ k, (s.takeFault k).AddressesInRange := fun _ => hs
  have hnext : (s.pc + 2).toNat ≤ 0x1002 := toNat_add_le hpc (by decide)
  have himm : ∀ nnn : Word, addressFits nnn = true → nnn.toNat ≤ 0xFFF := fun _ hnnn =>
    Nat.le_of_lt_succ (of_decide_eq_true hnnn)
  have hadvance : s.advance.AddressesInRange := hs.setPc hnext
  cases i with
  | cls | ldk | addk | mov => cases h; exact hadvance
  | jp nnn => cases h; exact hs.setPc ((himm nnn hwf).trans (by decide))
  | ldi nnn => cases h; exact (hs.setI (himm nnn hwf)).setPc hnext
  | se x kk =>
    rw [exec_se] at h
    cases h
    refine hs.setPc ?_
    split_ifs
    · exact toNat_add_le hpc (by decide)
    · exact hnext
  | call nnn =>
    exact State.settle_map_keeps h hfault fun u hpush => (hs.push hpc hpush).setPc ((himm nnn hwf).trans (by decide))
  | ret =>
    refine State.settle_map_keeps h hfault fun popped hpop => ?_
    obtain ⟨k, sp, rfl⟩ := State.pop_ok hpop
    have hpopped : State.AddressesInRange { s with sp := sp } := hs
    obtain ⟨-, -, hslot⟩ := hs
    exact hpopped.setPc (toNat_add_le (hslot k) (by decide))
  | ldf x =>
    exact State.settle_map_keeps h hfault fun a hglyph => (hs.setI (State.glyphAddress_toNat_le hglyph)).setPc hnext
  | drw x y n => exact State.settle_map_keeps h hfault fun _ _ => hadvance
  | bcd x | stm x =>
    refine State.settle_map_keeps h hfault fun u hwrite => ?_
    obtain ⟨-, rfl⟩ := State.memWrite_ok hwrite
    exact hadvance
  | ldm x =>
    refine State.settle_map_keeps h hfault fun bytes _ => ?_
    rw [s.setRegsFrom_eq]
    exact hadvance

theorem State.AddressesInRange.step {s t : State} (hs : s.AddressesInRange) (h : step s = .next t) :
    t.AddressesInRange := by
  refine step_keeps h (fun _ => hs) (fun w i u hf hd hexec => ?_) fun _ hu => hu
  obtain ⟨hfit, -⟩ := State.fetch_ok hf
  have hpc : s.pc.toNat + 2 ≤ 0xFFE + 2 := hfit
  exact hs.exec (Nat.le_of_add_le_add_right hpc) (wellFormed_of_decodeWord hd) hexec

/-! ### Timers at zero -/

theorem State.TimersAtZero.step {s t : State} (hs : s.TimersAtZero) (h : step s = .next t) : t.TimersAtZero := by
  obtain ⟨hDT, hST⟩ := hs
  refine step_keeps h (fun _ => ⟨hDT, hST⟩) (fun w i u _ _ hexec => ?_) fun u ⟨hDT, hST⟩ => ?_
  · obtain ⟨hsameDT, hsameST⟩ := exec_sameTimers hexec
    exact ⟨hsameDT.trans hDT, hsameST.trans hST⟩
  · refine ⟨?_, ?_⟩
    · rw [State.tick_DT, hDT]; rfl
    · rw [State.tick_ST, hST]; rfl

/-! ### All three, over the host's operations -/

/-- The invariants of every state a session reaches. -/
def State.MeetsInvariants (s : State) : Prop := s.MemoryCanonical ∧ s.AddressesInRange ∧ s.TimersAtZero

theorem State.meetsInvariants_resetWith (c : Config) : (State.resetWith c).MeetsInvariants := by
  have hslot : ∀ k, (State.resetWith c).slot k = 0 := fun k => Vector.getElem_replicate _
  have hpc : (0x200 : Word).toNat ≤ 0x1002 := by decide
  exact ⟨Memory.wf_nil c, ⟨Nat.zero_le _, hpc, fun k => by rw [hslot]; decide⟩, rfl, rfl⟩

theorem State.MeetsInvariants.operate {s : State} (hs : s.MeetsInvariants) (op : HostOp) :
    (operate op s).2.MeetsInvariants := by
  obtain ⟨hmem, haddr, htimers⟩ := hs
  obtain hsame | hreset | ⟨image, hload⟩ | hstep | ⟨keys, hkeys⟩ := operate_state_cases op s
  · rw [hsame]; exact ⟨hmem, haddr, htimers⟩
  · rw [hreset]; exact State.meetsInvariants_resetWith s.config
  · refine ⟨hmem.memWrite hload, ?_⟩
    obtain ⟨-, hstate⟩ := State.memWrite_ok hload
    rw [hstate]
    exact ⟨haddr, htimers⟩
  · exact ⟨hmem.step hstep, haddr.step hstep, htimers.step hstep⟩
  · rw [hkeys]; exact ⟨hmem, haddr, htimers⟩

/-! ### The obligations -/

/-- Settles O44: instructions write memory through the controller alone, which checks the range and keeps the form. -/
theorem stepKeepsMemoryCanonical : Obligations.StepKeepsMemoryCanonical :=
  fun _ _ hs h => hs.step h

/-- Settles O45: a step executes at `pc` up to 0xFFE only, and a decoded immediate has twelve bits. -/
theorem stepKeepsAddressesInRange : Obligations.StepKeepsAddressesInRange :=
  fun _ _ hs h => hs.step h

/-- Settles O46: memory lists nothing, `I`, the slots and the timers are 0, and `pc` is 0x200. -/
theorem resetMeetsInvariants : Obligations.ResetMeetsInvariants :=
  State.meetsInvariants_resetWith

/-- Settles O47: operation by operation, and over a session by induction on its operations. -/
theorem sessionsKeepInvariants : Obligations.SessionsKeepInvariants :=
  ⟨fun op _ hmem haddr htimers => State.MeetsInvariants.operate ⟨hmem, haddr, htimers⟩ op,
    fun c ops => session_keeps (fun op _ hs => hs.operate op) ops (State.meetsInvariants_resetWith c)⟩

end Sys2Proof.Machine
end

section
/-! The assembler (30_encoding.md R93, R94): a written line is read back whole, the instruction of a form, the bytes of
its line, and the obligations. -/

namespace Sys2Proof.Machine

/-! ### A written line is read back -/

theorem operandsText_cons_cons (o o2 : AsmOperand) (os : List AsmOperand) :
    operandsText (o :: o2 :: os) = o.text ++ ',' :: ' ' :: operandsText (o2 :: os) := rfl

/-- The text of some operands has no space at its ends. -/
theorem operandsText_ends (o : AsmOperand) (os : List AsmOperand) : operandsText (o :: os) ≠ [] ∧
    (operandsText (o :: os)).head? ≠ some ' ' ∧ (operandsText (o :: os)).getLast? ≠ some ' ' := by
  have hone : ∀ o : AsmOperand, o.text ≠ [] ∧ o.text.head? ≠ some ' ' ∧ o.text.getLast? ≠ some ' ' := fun o =>
    ⟨o.text_plain.1, fun h => (o.text_plain.2 _ (List.mem_of_mem_head? h)).1 rfl,
      fun h => (o.text_plain.2 _ (List.mem_of_getLast? h)).1 rfl⟩
  induction os generalizing o with
  | nil => exact hone o
  | cons o2 os ih =>
    obtain ⟨hne, hhead, -⟩ := hone o
    obtain ⟨hne2, -, hlast2⟩ := ih o2
    rw [operandsText_cons_cons, List.head?_append_of_ne_nil _ hne]
    refine ⟨by simp, hhead, ?_⟩
    obtain ⟨c, cs, hrest⟩ := List.exists_cons_of_ne_nil hne2
    rw [hrest] at hlast2 ⊢
    simpa [List.getLast?_append, List.getLast?_cons_cons] using hlast2

/-- The mnemonic of a line is what stands before its first space. -/
theorem takeWhile_dropWhile_mnemonic {mnemonic : List Char} (hplain : ∀ c ∈ mnemonic, c ≠ ' ') (text : List Char) :
    (mnemonic ++ ' ' :: text).takeWhile (· != ' ') = mnemonic ∧
      (mnemonic ++ ' ' :: text).dropWhile (· != ' ') = ' ' :: text := by
  have hnospace : ∀ c ∈ mnemonic, (c != ' ') = true := fun c hc => by simpa using hplain c hc
  rw [List.takeWhile_append_of_pos hnospace, List.dropWhile_append_of_pos hnospace]
  simp

/-- Everything the assembler reads from a written line is the mnemonic and the operands (30_encoding.md R93). -/
theorem assembleLine_asmLine {mnemonic : List Char} (operands : List AsmOperand) (hne : mnemonic ≠ [])
    (hplain : ∀ c ∈ mnemonic, c ≠ ' ') :
    assembleLine (asmLine mnemonic operands) = assembleParts mnemonic operands := by
  have hhead : mnemonic.head? ≠ some ' ' := fun h => hplain _ (List.mem_of_mem_head? h) rfl
  cases operands with
  | nil =>
    have hlast : mnemonic.getLast? ≠ some ' ' := fun h => hplain _ (List.mem_of_getLast? h) rfl
    have hnospace : ∀ c ∈ mnemonic, (c != ' ') = true := fun c hc => by simpa using hplain c hc
    simp only [assembleLine, asmLine, trimSpaces_eq hhead hlast, List.takeWhile_eq_self_iff.2 hnospace,
      List.dropWhile_eq_nil_iff.2 hnospace]
    rfl
  | cons o os =>
    have hparse := parseOperands_operandsText o os
    obtain ⟨hne2, hhead2, hlast2⟩ := operandsText_ends o os
    obtain ⟨c, rest, htext⟩ := List.exists_cons_of_ne_nil hne2
    rw [htext] at hparse hhead2 hlast2
    obtain ⟨htake, hdrop⟩ := takeWhile_dropWhile_mnemonic hplain (c :: rest)
    have hline : trimSpaces (mnemonic ++ ' ' :: c :: rest) = mnemonic ++ ' ' :: c :: rest :=
      trimSpaces_eq (by rwa [List.head?_append_of_ne_nil _ hne])
        (by simpa [List.getLast?_append, List.getLast?_cons_cons] using hlast2)
    simp only [assembleLine, asmLine, htext, hline, htake, hdrop, trimSpaces_cons_space, trimSpaces_eq hhead2 hlast2,
      hparse]

/-- A number in decimal starts neither as a register name nor as a hexadecimal number does. -/
theorem parseOperand_numeral_ten (v : Nat) : parseOperand (numeral 10 v) = some (.imm v) := by
  obtain ⟨hne, hdigits⟩ := numeral_spec (base := 10) (by omega) (by omega) v
  have hvalue := digitsValue_numeral (base := 10) (by omega) (by omega) v
  have hplain : ∀ c ∈ numeral 10 v, c ≠ 'V' ∧ c ≠ 'x' := by
    intro c hc
    obtain ⟨d, hd, rfl⟩ := hdigits c hc
    obtain ⟨-, -, hV, hx⟩ := digitChar_plain d (by omega)
    exact ⟨hV, hx⟩
  generalize numeral 10 v = text at hne hvalue hplain
  unfold parseOperand
  split
  · exact absurd rfl (hplain 'V' (by simp)).1
  · exact absurd rfl (hplain 'x' (by simp)).2
  · rw [hvalue, Option.map_some]
  · exact absurd rfl hne

/-! ### Immediates in range -/

theorem asmAddress_map (f : Word → Instr) (v : Nat) :
    (asmAddress v).map f = if v ≤ 0xFFF then some (f (BitVec.ofNat 16 v)) else none := by
  unfold asmAddress; split_ifs <;> rfl

theorem asmByte_map {α : Type} (f : Byte → α) (v : Nat) :
    (asmByte v).map f = if v ≤ 0xFF then some (f (BitVec.ofNat 8 v)) else none := by
  unfold asmByte; split_ifs <;> rfl

theorem asmRows_map (f : Nat → Instr) (v : Nat) : (asmRows v).map f = if v ≤ 15 then some (f v) else none := by
  unfold asmRows; split_ifs <;> rfl

theorem asmAddress_eq_some_iff {v : Nat} {a : Word} :
    asmAddress v = some a ↔ addressFits a = true ∧ a.toNat = v := by
  simp only [asmAddress, addressFits, decide_eq_true_eq, Option.ite_none_right_eq_some, Option.some.injEq,
    ← BitVec.toNat_inj, BitVec.toNat_ofNat]
  omega

theorem asmByte_eq_some_iff {v : Nat} {b : Byte} : asmByte v = some b ↔ b.toNat = v := by
  simp only [asmByte, Option.ite_none_right_eq_some, Option.some.injEq, ← BitVec.toNat_inj, BitVec.toNat_ofNat]
  omega

theorem asmRows_eq_some_iff {v n : Nat} : asmRows v = some n ↔ rowCountFits n = true ∧ n = v := by
  simp only [asmRows, rowCountFits, decide_eq_true_eq, Option.ite_none_right_eq_some, Option.some.injEq]
  omega

/-! ### Instructions and their forms -/

/-- Only the fourteen forms are instructions. The cases are the rows of the table of R93 in its order: those without an
immediate, with an address, with a byte, with a row count; and the rest. -/
theorem wellFormed_and_form_of_assembleInstr {mnemonic : List Char} {operands : List AsmOperand} {i : Instr}
    (h : assembleInstr mnemonic operands = some i) : i.WellFormed ∧ asmForm i = (mnemonic, operands) := by
  unfold assembleInstr at h
  split at h
  case h_1 | h_2 | h_8 | h_11 | h_12 | h_13 | h_14 => cases h; exact ⟨rfl, rfl⟩
  case h_3 | h_4 | h_9 =>
    obtain ⟨a, ha, rfl⟩ := Option.map_eq_some_iff.1 h
    obtain ⟨hfits, rfl⟩ := asmAddress_eq_some_iff.1 ha
    exact ⟨hfits, rfl⟩
  case h_5 | h_6 | h_7 =>
    obtain ⟨b, hb, rfl⟩ := Option.map_eq_some_iff.1 h
    obtain rfl := asmByte_eq_some_iff.1 hb
    exact ⟨rfl, rfl⟩
  case h_10 =>
    obtain ⟨n, hn, rfl⟩ := Option.map_eq_some_iff.1 h
    obtain ⟨hfits, rfl⟩ := asmRows_eq_some_iff.1 hn
    exact ⟨hfits, rfl⟩
  case h_15 => cases h

theorem assembleInstr_asmForm {i : Instr} (h : i.WellFormed) :
    assembleInstr (asmForm i).1 (asmForm i).2 = some i := by
  cases i with
  | cls | ret | mov | ldf | bcd | stm | ldm => rfl
  | jp nnn | call nnn | ldi nnn => exact Option.map_eq_some_iff.2 ⟨nnn, asmAddress_eq_some_iff.2 ⟨h, rfl⟩, rfl⟩
  | se x kk | ldk x kk | addk x kk => exact Option.map_eq_some_iff.2 ⟨kk, asmByte_eq_some_iff.2 rfl, rfl⟩
  | drw x y n => exact Option.map_eq_some_iff.2 ⟨n, asmRows_eq_some_iff.2 ⟨h, rfl⟩, rfl⟩

theorem assembleParts_asmForm (i : Instr) : assembleParts (asmForm i).1 (asmForm i).2 =
    (assembleInstr (asmForm i).1 (asmForm i).2).map encodeBytes := by
  cases i <;> rfl

theorem asmForm_mnemonic (i : Instr) : (asmForm i).1 ≠ [] ∧ ∀ c ∈ (asmForm i).1, c ≠ ' ' := by
  cases i <;> simp [asmForm]

theorem assembleInstr_eq_some_iff {mnemonic : List Char} {operands : List AsmOperand} {i : Instr} :
    assembleInstr mnemonic operands = some i ↔ i.WellFormed ∧ asmForm i = (mnemonic, operands) := by
  refine ⟨wellFormed_and_form_of_assembleInstr, fun ⟨hwf, hform⟩ => ?_⟩
  have h := assembleInstr_asmForm hwf
  rwa [hform] at h

/-! ### The bytes of a line -/

theorem assembleParts_of_assembleInstr {mnemonic : List Char} {operands : List AsmOperand} {i : Instr}
    (h : assembleInstr mnemonic operands = some i) : assembleParts mnemonic operands = some (encodeBytes i) := by
  obtain ⟨hwf, hform⟩ := assembleInstr_eq_some_iff.1 h
  have hparts := assembleParts_asmForm i
  rwa [assembleInstr_asmForm hwf, hform] at hparts

theorem assembleLine_lineOf {i : Instr} (h : i.WellFormed) : assembleLine (lineOf i) = some (encodeBytes i) := by
  obtain ⟨hne, hplain⟩ := asmForm_mnemonic i
  rw [lineOf, assembleLine_asmLine _ hne hplain, assembleParts_of_assembleInstr (assembleInstr_asmForm h)]

/-- An instruction's bytes are those of the number its word is made from. -/
theorem encodeBytes_of_encode {i : Instr} {n : Nat} (h : encode i = BitVec.ofNat 16 n) :
    encodeBytes i = asmWordBytes n := by
  have hhigh : BitVec.ofNat 8 (bits (encode i) 15 8) = BitVec.ofNat 8 (n / 256) := BitVec.eq_of_toNat_eq (by
    rw [h, bits, BitVec.toNat_ofNat, BitVec.toNat_ofNat, BitVec.toNat_ofNat]; omega)
  have hlow : BitVec.ofNat 8 (bits (encode i) 7 0) = BitVec.ofNat 8 n := BitVec.eq_of_toNat_eq (by
    rw [h, bits, BitVec.toNat_ofNat, BitVec.toNat_ofNat, BitVec.toNat_ofNat]; omega)
  rw [encodeBytes, asmWordBytes, hhigh, hlow]

/-- The line of a form, from the instruction that the form gives and the number of that instruction's word. -/
theorem assembleLine_of_form {mnemonic : List Char} {operands : List AsmOperand} {i : Instr} {n : Nat}
    (h : assembleInstr mnemonic operands = some i) (hword : encode i = BitVec.ofNat 16 n) :
    assembleLine (asmLine mnemonic operands) = some (asmWordBytes n) := by
  obtain ⟨hwf, hform⟩ := assembleInstr_eq_some_iff.1 h
  have hline := assembleLine_lineOf hwf
  rwa [lineOf, hform, encodeBytes_of_encode hword] at hline

/-- The line of a form whose last operand, an immediate, is read by `parse`: in its range it gives the word, out of it
the line is rejected. -/
theorem assembleLine_of_immediate {α : Type} {mnemonic : List Char} {operands : List AsmOperand} (parse : Option α)
    (f : α → Instr) {p : Prop} [Decidable p] {a : α} {n : Nat} (hne : mnemonic ≠ []) (hplain : ∀ c ∈ mnemonic, c ≠ ' ')
    (hparts : assembleParts mnemonic operands = (parse.map f).map encodeBytes)
    (hparse : parse = if p then some a else none) (hword : p → encode (f a) = BitVec.ofNat 16 n) :
    assembleLine (asmLine mnemonic operands) = if p then some (asmWordBytes n) else none := by
  rw [assembleLine_asmLine operands hne hplain, hparts, hparse]
  split_ifs with hp
  · exact congrArg some (encodeBytes_of_encode (hword hp))
  · rfl

theorem encode_ofNat_address (f : Word → Instr) {base v : Nat}
    (hencode : ∀ a : Word, encode (f a) = BitVec.ofNat 16 (base + a.toNat)) (h : v ≤ 0xFFF) :
    encode (f (BitVec.ofNat 16 v)) = BitVec.ofNat 16 (base + v) := by
  rw [hencode, BitVec.toNat_ofNat, Nat.mod_eq_of_lt (by omega)]

theorem encode_ofNat_byte (f : Byte → Instr) {base v : Nat}
    (hencode : ∀ b : Byte, encode (f b) = BitVec.ofNat 16 (base + b.toNat)) (h : v ≤ 0xFF) :
    encode (f (BitVec.ofNat 8 v)) = BitVec.ofNat 16 (base + v) := by
  rw [hencode, BitVec.toNat_ofNat, Nat.mod_eq_of_lt (by omega)]

/-! ### The obligations -/

/-- Settles O48: the forms one by one, the rest by cases on the form, and lines by what the assembler reads back. -/
theorem assemblerLinesEncodeInstructions : Obligations.AssemblerLinesEncodeInstructions := by
  refine ⟨rfl, rfl, asmAddress_map .jp, asmAddress_map .call, ?se, ?ldk, ?addk, fun _ _ => rfl, asmAddress_map .ldi,
    ?drw, fun _ => rfl, fun _ => rfl, fun _ => rfl, fun _ => rfl, ?onlyForms, ?bytes, ?lines⟩
  case se => exact fun x => asmByte_map (Instr.se x)
  case ldk => exact fun x => asmByte_map (Instr.ldk x)
  case addk => exact fun x => asmByte_map (Instr.addk x)
  case drw => exact fun x y => asmRows_map (.drw x y)
  case onlyForms => exact fun _ _ _ => assembleInstr_eq_some_iff
  case bytes => exact fun _ _ _ => assembleParts_of_assembleInstr
  case lines =>
    intro i h
    have hdecode := decode_encodeBytes_append h []
    rw [List.append_nil] at hdecode
    exact ⟨assembleLine_lineOf h, hdecode⟩

/-- Settles O49: each form gives an instruction whose word is the sum in the table's second column. -/
theorem assemblerLinesGiveTableWords : Obligations.AssemblerLinesGiveTableWords := by
  refine ⟨assembleLine_of_form rfl rfl, assembleLine_of_form rfl rfl, ?jp, ?call, ?se, ?ldk, ?addk,
    fun _ _ => assembleLine_of_form rfl rfl, ?ldi, ?drw, fun _ => assembleLine_of_form rfl rfl,
    fun _ => assembleLine_of_form rfl rfl, fun _ => assembleLine_of_form rfl rfl, fun _ => assembleLine_of_form rfl rfl⟩
  case jp | call | ldi =>
    intro v
    exact assembleLine_of_immediate (asmAddress v) _ (by simp) (by simp) rfl rfl (encode_ofNat_address _ fun _ => rfl)
  case se | ldk | addk =>
    intro x v
    exact assembleLine_of_immediate (asmByte v) _ (by simp) (by simp) rfl rfl (encode_ofNat_byte _ fun _ => rfl)
  case drw =>
    intro x y v
    exact assembleLine_of_immediate (asmRows v) _ (by simp) (by simp) rfl rfl fun _ => rfl

/-- Settles O50: written lines are read back as they stand, and DW and DB emit what they are given. -/
theorem assemblerReadsWrittenLines : Obligations.AssemblerReadsWrittenLines := by
  refine ⟨fun _ operands hne hplain => assembleLine_asmLine operands hne hplain, parseOperand_text,
    parseOperand_numeral_ten, by decide, by decide, by decide, fun v => ?_, fun v => ?_⟩
  · have hlow : BitVec.ofNat 8 v = BitVec.ofNat 8 (v % 256) := BitVec.eq_of_toNat_eq (Nat.mod_mod v 256).symm
    rw [assembleLine_asmLine (mnemonic := ['D', 'W']) _ (by simp) (by simp), ← hlow]
    rfl
  · rw [assembleLine_asmLine (mnemonic := ['D', 'B']) _ (by simp) (by simp)]
    exact asmByte_map (fun b => [b]) v

end Sys2Proof.Machine
end
